-- ==== Sys2Proof/Word.lean ====
section
/-! DEFINITION. The widths the spec declares for whole values (00_scope.md R8, R10; 30_encoding.md R80, R84). -/

namespace Sys2Proof

/-- A 32-bit word: an operation word (R80), a result word (R84), a NEC code (R31). -/
abbrev Word := BitVec 32

/-- A 16-bit value: an RC6 code (R32). -/
abbrev Half := BitVec 16

/-- A 16-bit capture timestamp in ticks; it wraps at 65536 (R8, R13). -/
abbrev Timestamp := BitVec 16

/-- One byte of a result word as the optional word view lays it out (R62). -/
abbrev Byte := BitVec 8

end Sys2Proof
end

