-- ==== Sys2Proof/Syntax.lean ====
section
/-! DEFINITION. The operations as terms: the four rows of the opcode table, and the assembler's source terms with the
pseudo-operations. -/

namespace Sys2Proof

/-- The operations of 30_encoding.md R81, one constructor a row of the opcode table. -/
inductive Instr where
  /-- EDGE ts, lv (R100): `lv` is the pin level after the edge; false is a falling edge (R13). -/
  | edge (ts : BitVec 16) (lv : Bool)
  /-- READ_NEC (R220). -/
  | readNec
  /-- READ_RC6 (R221). -/
  | readRc6
  /-- DECODE (R222). -/
  | decode
deriving DecidableEq, Repr

/-- An edge event `(ts, lv)` (00_scope.md R13): what a waveform is made of. -/
structure EdgeEvent where
  ts : BitVec 16
  lv : Bool
deriving DecidableEq, Repr

/-- One source line of the assembler (R88 to R91), with its numbers as written, before any range check. -/
inductive SourceOp where
  | edge (ts lv : Nat)
  | readNec
  | readRc6
  | decode
  /-- WAVE t0, (l1, d1), ..., (ln, dn) (R89). -/
  | wave (t0 : Nat) (segs : List (Nat × Nat))
  /-- NEC_FRAME t0, code (R90). -/
  | necFrame (t0 code : Nat)
  /-- RC6_FRAME t0, mode, toggle, data, h (R91). -/
  | rc6Frame (t0 mode toggle data h : Nat)
deriving DecidableEq, Repr

/-- A token of a source line (R88). -/
inductive Token where
  | ident (name : List Char)
  | num (n : Nat)
  | comma
  | lpar
  | rpar
deriving DecidableEq, Repr

end Sys2Proof
end

