-- ==== Sys2Proof/Decode.lean ====
section
/-! DEFINITION. Decoding operation words, total and rejecting by name, and the encoder (30_encoding.md R80 to R88). -/

namespace Sys2Proof

/-- What a word decodes to (R87): one of the four operations, or `Illegal(w)`. -/
inductive Decoded where
  | op (i : Instr)
  | illegal (w : Word)
deriving DecidableEq, Repr

/-- `ts: u16 <- w[15:0]` (R83), unchanged. -/
def fieldT (w : Word) : BitVec 16 := w.extractLsb' 0 16

/-- `lv: bit <- w[16]` (R83). -/
def fieldL (w : Word) : Bool := w.getLsbD 16

/-- `op`, bits [31:29] (R80). -/
def fieldOp (w : Word) : BitVec 3 := w.extractLsb' 29 3

/-- `rsv`, bits [28:17] (R80). -/
def fieldRsv (w : Word) : BitVec 12 := w.extractLsb' 17 12

/-- decode_word of R87, with the masks and matches of R82. -/
def decodeWord (w : Word) : Decoded :=
  if w &&& 0xFFFE0000#32 = 0x20000000#32 then .op (.edge (fieldT w) (fieldL w))
  else if w = 0x40000000#32 then .op .readNec
  else if w = 0x60000000#32 then .op .readRc6
  else if w = 0x80000000#32 then .op .decode
  else .illegal w

/-- The operation a word decodes to, where it is legal. -/
def Decoded.toOption : Decoded → Option Instr
  | .op i => some i
  | .illegal _ => none

/-- The word of an operation (R88): EDGE is `0x20000000 | (lv << 16) | ts`, the others are their match value (R82). -/
def encode : Instr → Word
  | .edge ts lv => 0x20000000#32 ||| ((BitVec.ofBool lv).setWidth 32 <<< 16) ||| ts.setWidth 32
  | .readNec => 0x40000000#32
  | .readRc6 => 0x60000000#32
  | .decode => 0x80000000#32

/-- The operation word whose low `nbits` bits are those of `w`; every bit above is 0. -/
def tableWord (nbits w : Nat) : Word := BitVec.ofNat 32 (w % 2 ^ nbits)

/-- The operation this decoder reads from the `nbits` bits of `w` (opcode_table.json numbers them as R80 does, bit 0 the
least significant). An operation is one 32-bit word; a longer pattern with a bit above bit 31 is none (log 13). -/
def decodeTableWord (nbits w : Nat) : Option Instr :=
  if w % 2 ^ nbits < 2 ^ 32 then (decodeWord (tableWord nbits w)).toOption else none

end Sys2Proof
end

