-- ==== Sys2Proof/Config.lean ====
section
/-! DEFINITION. What an instance of IRDEC is built with: the key identifiers, the code table and the base of the
optional word view. The timing thresholds, fixed by the spec, are in Machine/Thresholds.lean. -/

namespace Sys2Proof

/-- KeyId, the logical keys (10_state.md R39). `none` is the spec's None. -/
inductive KeyId where
  | none
  | enter
  | esc
  | up
  | down
  | left
  | right
deriving DecidableEq, Repr

/-- CODE_TABLE (R7, R40): two ordered lists of literals with their keys. The order is the matching order (R223). -/
structure CodeTable where
  nec : List (BitVec 32 × KeyId)
  rc6 : List (BitVec 16 × KeyId)
deriving DecidableEq, Repr

/-- SAMPLE_TABLE of 95_test_vectors.md: the spec's own illustrative table. -/
def Config.sampleTable : CodeTable where
  nec := [(0xE0E016E9#32, .enter), (0x000000F5#32, .esc), (0x000000F1#32, .up),
          (0x000000F2#32, .down), (0x000000F3#32, .left), (0x000000F4#32, .right)]
  rc6 := [(0x000C#16, .up), (0x800C#16, .up), (0x0C01#16, .enter)]

/-- DESIGN CHOICE (log 4), unsafe: the table `State.reset` is built with. The spec leaves CODE_TABLE OPEN (D23). -/
def Config.codeTable : CodeTable := Config.sampleTable

/-- DESIGN CHOICE (log 6), unsafe: the base `State.reset` is built with. The word view is optional and IRDEC_BASE is
left to the platform (R61); `none` is an IRDEC behind no bus. -/
def Config.busBase : Option Nat := Option.none

end Sys2Proof
end

