-- ==== Sys2Proof/Machine/State.lean ====
section
/-! DEFINITION. The state of IRDEC as plain data (10_state.md R20 to R41), the inputs its agents apply, the ways a step can
stop, and the state after reset (70_reset_and_hazards.md R291). -/

namespace Sys2Proof.Machine

/-- `nec.phase` (R21). -/
inductive NecPhase where
  | init
  | start
  | readWait
  | readGet
  | stop
deriving DecidableEq, Repr

/-- `rc6.phase` (R25). -/
inductive Rc6Phase where
  | init
  | start1
  | start2
  | start3
  | readFieldWait
  | readToggle1
  | readToggle2
  | readGet
deriving DecidableEq, Repr

/-- The two named outcomes the source asks for on an event in ReadToggle2 (42_rc6_decoder.md R177, R178). -/
inductive ToggleEnd where
  | consumedToggleOnly
  | beganFirstDataBit
deriving DecidableEq, Repr

/-- NecState (R21 to R24). `bitIndex` is an i8 in two's complement (R8, R10); R37 keeps it in 0..31, so no step wraps it (R11, log 9). -/
structure NecState where
  phase : NecPhase
  acc : BitVec 32
  bitIndex : BitVec 8
  last : BitVec 16
deriving DecidableEq, Repr

/-- Rc6State (R25 to R30). `bitIndex` and `field` are u8 (R8); R37 keeps them in 0..15 and 0..2, so no step wraps them (R11, log 9). -/
structure Rc6State where
  phase : Rc6Phase
  acc : BitVec 16
  bitIndex : BitVec 8
  field : BitVec 8
  mid : Bool
  last : BitVec 16
deriving DecidableEq, Repr

/-- The agents that act on IRDEC (60_exceptions.md R270). -/
inductive Agent where
  | producer
  | consumer
  | reset
deriving DecidableEq, Repr

/-- What an agent applies to IRDEC, one atomic step each (R6, R61, R290). -/
inductive Input where
  /-- An operation word (R80). -/
  | op (w : BitVec 32)
  /-- The reset input; it is no operation word (R293). -/
  | reset
  /-- A bus read of `width` bits at an address (R61). -/
  | busRead (addr width : Nat)
  /-- A bus write of `width` bits at an address (R61). -/
  | busWrite (addr width value : Nat)
deriving DecidableEq, Repr

/-- IRDEC has no exception, fault, trap or error code (R260): no operation raises anything, so there is no way to build a
fault (log 8). Safe: a step is a next state or a refusal. -/
inductive Fault where
deriving DecidableEq, Repr

/-- The words, tables and accesses to which the spec gives no meaning (`refuse`, R12). Each is safe: nothing can be proved
of a run that meets one. -/
inductive Refusal where
  /-- An operation without a meaning in this model, by its mnemonic: raised by no arm of `exec`. Safe. -/
  | notModelled (mnemonic : String)
  /-- `refuse(IllegalOperation(w))`: raised when an illegal word is applied (R86, R262). Safe. -/
  | illegalOperation (w : BitVec 32)
  /-- The instance has an ill-formed CODE_TABLE (R41, R263): raised when it is built and by every step of it. Safe. -/
  | illFormedCodeTable
  /-- A bus access to an IRDEC that sits behind no bus (R61): raised by the word view. Safe. -/
  | noWordView (addr : Nat)
  /-- A bus access that begins outside the 12-byte window (R61, I8): raised by the word view. Safe. -/
  | outsideWindow (addr : Nat)
  /-- A bus access in the window at an offset other than 0, 4, 8 (R61, R63): raised by the word view. Safe. -/
  | badOffset (offset : Nat)
  /-- A bus access in the window of a width other than 32 bits (R61, R63): raised by the word view. Safe. -/
  | badWidth (width : Nat)
deriving DecidableEq, Repr

/-- The machine. The first four fields are the spec's record (R20). `codeTable` and `busBase` are the instance's parameters
(R7, R61), written by no step. `result` is the result word of the last operation, `none` where it returned no value (R84, log 1).
`schedule` is what the agents still apply, in the one total order of R69 (log 2). -/
structure State where
  nec : NecState
  rc6 : Rc6State
  necLatch : BitVec 32
  rc6Latch : BitVec 16
  result : Option (BitVec 32)
  codeTable : CodeTable
  busBase : Option Nat
  schedule : List Input
deriving DecidableEq, Repr

/-- The reset values of `nec` (R21 to R24, R291). -/
def NecState.reset : NecState where
  phase := .init
  acc := 0
  bitIndex := 0
  last := 0

/-- The reset values of `rc6` (R25 to R30, R291). -/
def Rc6State.reset : Rc6State where
  phase := .init
  acc := 0
  bitIndex := 0
  field := 0
  mid := false
  last := 0

/-- The reset state (R291) of an instance with the given parameters, nothing yet applied to it. -/
def State.resetWith (codeTable : CodeTable) (busBase : Option Nat) : State where
  nec := NecState.reset
  rc6 := Rc6State.reset
  necLatch := 0
  rc6Latch := 0
  result := none
  codeTable := codeTable
  busBase := busBase
  schedule := []

/-- The machine right after reset (R291), with the parameters of Config.lean. -/
def State.reset : State := State.resetWith Config.codeTable Config.busBase

end Sys2Proof.Machine
end

