-- ==== Sys2Proof/Machine/Operands.lean ====
section
/-! DEFINITION. EDGE's operands as the phase rules read them, and the assembly of result words (40_edge_event.md R102, R107;
30_encoding.md R84, R85). -/

namespace Sys2Proof.Machine

/-- Δt: `(ts - last) mod 2^16` as an unsigned number (R102). -/
def deltaT (ts last : Timestamp) : Nat := (ts - last).toNat

/-- "Pin falls": lv = 0 (R107). -/
def falls (lv : Bool) : Bool := !lv

/-- "Pin rises": lv = 1 (R107). -/
def rises (lv : Bool) : Bool := lv

/-- `zext_32` of an RC6 code: bits [31:16] are 0 (R84). -/
def rc6ResultWord (code : Half) : Word := code.setWidth 32

/-- The KeyId number (R39, R85). -/
def keyCode : KeyId → BitVec 3
  | .none => 0
  | .enter => 1
  | .esc => 2
  | .up => 3
  | .down => 4
  | .left => 5
  | .right => 6

/-- `zext_32(code(k))`: bits [31:3] are 0 (R84). -/
def keyResultWord (k : KeyId) : Word := (keyCode k).setWidth 32

/-- Byte `k` of a word in the little-endian word view: bits [8k+7:8k] (R62). -/
def byteOf (w : Word) (k : Nat) : Byte := w.extractLsb' (8 * k) 8

/-- The four bytes of a result word at byte offsets 0 to 3 (R62). -/
def wordBytes (w : Word) : List Byte := [byteOf w 0, byteOf w 1, byteOf w 2, byteOf w 3]

end Sys2Proof.Machine
end

