-- ==== Sys2Proof/Machine/Checks.lean ====
section
/-! DEFINITION. The decidable checks that WellFormed.lean puts together: the four conditions of 10_state.md R41 on a
code table, and the operand ranges of the assembler (30_encoding.md R88, R90, R91). -/

namespace Sys2Proof.Machine

/-- The six keys an entry may name: every KeyId but None (R39, R41(a)). -/
def realKeys : List KeyId := [.enter, .esc, .up, .down, .left, .right]

/-- How many entries of a list name the key. -/
def entriesFor {w : Nat} (k : KeyId) (l : List (BitVec w × KeyId)) : Nat :=
  l.countP fun e => decide (e.2 = k)

/-- R41(a): no entry names None. -/
def keysNamed (t : CodeTable) : Bool :=
  (t.nec.all fun e => decide (e.2 ≠ .none)) && (t.rc6.all fun e => decide (e.2 ≠ .none))

/-- R41(b): exactly one NEC entry for each of the six keys, six entries in all. -/
def oneNecLiteralPerKey (t : CodeTable) : Bool :=
  decide (t.nec.length = 6) && realKeys.all fun k => decide (entriesFor k t.nec = 1)

/-- R41(c): at most two RC6 entries for each key, at most twelve in all. -/
def atMostTwoRc6LiteralsPerKey (t : CodeTable) : Bool :=
  decide (t.rc6.length ≤ 12) && realKeys.all fun k => decide (entriesFor k t.rc6 ≤ 2)

/-- R41(d): no literal is 0, the value of an empty latch. -/
def noZeroLiteral (t : CodeTable) : Bool :=
  (t.nec.all fun e => decide (e.1 ≠ 0)) && (t.rc6.all fun e => decide (e.1 ≠ 0))

/-- A source number that fits an unsigned field of `bits` bits. -/
def fitsBits (bits n : Nat) : Bool := decide (n < 2 ^ bits)

end Sys2Proof.Machine
end

