-- ==== Sys2Proof/WellFormed.lean ====
section
/-! DEFINITION. Well-formedness: of an operation, of an assembler source term, of a code table. -/

namespace Sys2Proof

/-- Every operation term is well-formed: `ts : u16` and `lv : bit` take every value the encoding admits and no other
(30_encoding.md R80, R83), and the other operations have no operand. -/
def Instr.wellFormed : Instr → Bool
  | .edge _ _ => true
  | .readNec => true
  | .readRc6 => true
  | .decode => true

/-- The assembler's operand ranges: EDGE of R88; a WAVE has at least one segment and its levels are bits (R89); NEC_FRAME
takes `code: u32` (R90); RC6_FRAME takes `mode: u3`, `toggle: bit`, `data: u16` (R91). A waveform's start time and durations are
unbounded, since R89 reduces them modulo 65536 (log 12). -/
def SourceOp.wellFormed : SourceOp → Bool
  | .edge ts lv => Machine.fitsBits 16 ts && Machine.fitsBits 1 lv
  | .readNec => true
  | .readRc6 => true
  | .decode => true
  | .wave _ segs => !segs.isEmpty && segs.all fun seg => Machine.fitsBits 1 seg.1
  | .necFrame _ code => Machine.fitsBits 32 code
  | .rc6Frame _ mode toggle data _ =>
      Machine.fitsBits 3 mode && Machine.fitsBits 1 toggle && Machine.fitsBits 16 data

/-- A well-formed CODE_TABLE: R41 (a) to (d). -/
def CodeTable.wellFormed (t : CodeTable) : Bool :=
  Machine.keysNamed t && Machine.oneNecLiteralPerKey t && Machine.atMostTwoRc6LiteralsPerKey t &&
    Machine.noZeroLiteral t

end Sys2Proof
end

