-- ==== Sys2Proof/Machine/Ops.lean ====
section
/-! DEFINITION. The operations shared by the meanings: writing one accumulator bit, read-and-clear of a latch, the result
word, the reset input, building an instance. IRDEC takes no exception and returns from none (60_exceptions.md R260, R267). -/

namespace Sys2Proof.Machine

/-- `v[k] <- b` leaving the other bits unchanged (R12); a `k` past the width names no bit and writes none. -/
def setBit {w : Nat} (v : BitVec w) (k : Nat) (b : Bool) : BitVec w :=
  if b then v ||| BitVec.twoPow w k else v &&& ~~~(BitVec.twoPow w k)

/-- `acc[i] <- b` for the number an index stands for (R12). A negative index names no bit; R37 keeps every index in range
(log 9). -/
def storeBit {w : Nat} (acc : BitVec w) (i : Int) (b : Bool) : BitVec w :=
  match i with
  | .ofNat k => setBit acc k b
  | .negSucc _ => acc

/-- The operation's result word (R84); `none` for an operation that returns no value. -/
def State.withResult (s : State) (r : Option Word) : State := { s with result := r }

/-- The result as a 32-bit word, 0 where the operation returns no value (R84). -/
def State.resultWord (s : State) : Word := s.result.getD 0

/-- The clear of `nec_latch` in a read-and-clear (R65, R220). -/
def State.clearNec (s : State) : State := { s with necLatch := 0 }

/-- The clear of `rc6_latch` in a read-and-clear (R65, R221). -/
def State.clearRc6 (s : State) : State := { s with rc6Latch := 0 }

/-- The state once the first input of the schedule is taken off it. -/
def State.withSchedule (s : State) (rest : List Input) : State := { s with schedule := rest }

/-- The reset input (R290): every state field to its reset value in one step. The parameters stay (R290), and so does what the
agents go on to apply, which is not IRDEC's state (log 11). -/
def State.applyReset (s : State) : State :=
  (State.resetWith s.codeTable s.busBase).withSchedule s.schedule

/-- Building an instance (R263): a badly formed table is refused, else the instance is in its reset state. -/
def buildInstance (t : CodeTable) (busBase : Option Nat) : Host.Outcome State Fault Refusal :=
  if t.wellFormed then .next (State.resetWith t busBase) else .refused .illFormedCodeTable

/-- The number of a NEC phase in a trace (R21). -/
def necPhaseNumber : NecPhase → Nat
  | .init => 0
  | .start => 1
  | .readWait => 2
  | .readGet => 3
  | .stop => 4

/-- The number of an RC6 phase in a trace (R25). -/
def rc6PhaseNumber : Rc6Phase → Nat
  | .init => 0
  | .start1 => 1
  | .start2 => 2
  | .start3 => 3
  | .readFieldWait => 4
  | .readToggle1 => 5
  | .readToggle2 => 6
  | .readGet => 7

end Sys2Proof.Machine
end

