-- ==== Sys2Proof/Machine/KeyMapper.lean ====
section
/-! DEFINITION. The key mapper and DECODE (43_key_mapper.md R222 to R227). -/

namespace Sys2Proof.Machine

/-- The key of the first entry equal to the whole code, in list order (R223). -/
def lookupCode {w : Nat} (code : BitVec w) : List (BitVec w × KeyId) → Option KeyId
  | [] => none
  | (c, k) :: rest => if code = c then some k else lookupCode code rest

/-- The key of a pair of latch values: the NEC list first, then the RC6 list, else None (R222, R223). -/
def mapCodes (t : CodeTable) (necCode : Word) (rc6Code : Half) : KeyId :=
  match lookupCode necCode t.nec with
  | some k => k
  | none =>
    match lookupCode rc6Code t.rc6 with
    | some k => k
    | none => .none

/-- DECODE (R222): both latches are read and cleared, NEC then RC6, in one step and on every path (R66). -/
def execDecode (s : State) : Host.Outcome State Fault Refusal :=
  .next (s.clearNec.clearRc6.withResult (some (keyResultWord (mapCodes s.codeTable s.necLatch s.rc6Latch))))

end Sys2Proof.Machine
end

