-- ==== Sys2Proof/Machine/Latches.lean ====
section
/-! DEFINITION. The raw read-and-clear accessors (43_key_mapper.md R220, R221), each one atomic step (20_memory.md R65). -/

namespace Sys2Proof.Machine

/-- READ_NEC (R220). -/
def execReadNec (s : State) : Host.Outcome State Fault Refusal :=
  .next (s.clearNec.withResult (some s.necLatch))

/-- READ_RC6 (R221). -/
def execReadRc6 (s : State) : Host.Outcome State Fault Refusal :=
  .next (s.clearRc6.withResult (some (rc6ResultWord s.rc6Latch)))

end Sys2Proof.Machine
end

