-- ==== Sys2Proof/Machine/Bus.lean ====
section
/-! DEFINITION. The optional word view (20_memory.md R61 to R63): three 32-bit words at IRDEC_BASE. -/

namespace Sys2Proof.Machine

/-- The window's words by byte offset (R61): NEC_CODE, RC6_CODE, KEY. A read performs one operation. -/
def readWindow (offset : Nat) (s : State) : Host.Outcome State Fault Refusal :=
  match offset with
  | 0 => execReadNec s
  | 4 => execReadRc6 s
  | 8 => execDecode s
  | _ => .refused (.badOffset offset)

/-- A write of a word of the window has no effect (R61); there is no word at another offset. -/
def writeWindow (offset : Nat) (s : State) : Host.Outcome State Fault Refusal :=
  match offset with
  | 0 => .next s
  | 4 => .next s
  | 8 => .next s
  | _ => .refused (.badOffset offset)

/-- The checks every access passes before it reaches the window (R61, R63): IRDEC is behind a bus, the address lies in the 12 bytes
at the base, the width is 32 bits (log 6 and 7). `Except` carries the byte offset or the refusal. -/
def busOffset (busBase : Option Nat) (addr width : Nat) : Except Refusal Nat :=
  match busBase with
  | none => .error (.noWordView addr)
  | some base =>
    if addr < base ∨ base + 12 ≤ addr then .error (.outsideWindow addr)
    else if width ≠ 32 then .error (.badWidth width)
    else .ok (addr - base)

/-- A bus read of `width` bits at `addr`. The word read is the operation's result word. -/
def busRead (addr width : Nat) (s : State) : Host.Outcome State Fault Refusal :=
  match busOffset s.busBase addr width with
  | .error r => .refused r
  | .ok offset => readWindow offset s

/-- A bus write of `width` bits at `addr`; the value written is never looked at. -/
def busWrite (addr width : Nat) (s : State) : Host.Outcome State Fault Refusal :=
  match busOffset s.busBase addr width with
  | .error r => .refused r
  | .ok offset => writeWindow offset s

/-- The four bytes a bus read returns, at byte offsets 0 to 3 of the word (R62). -/
def State.readData (s : State) : List Byte := wordBytes s.resultWord

end Sys2Proof.Machine
end

