-- ==== Sys2Proof/Machine/Thresholds.lean ====
section
/-! DEFINITION. The timing thresholds in ticks: the table of 00_scope.md R9, under its own names. -/

namespace Sys2Proof.Machine

/-- Δt > 300 outside Init forces Init (R121). -/
abbrev NEC_GUARD : Nat := 300
/-- Start times out at Δt > 200 (R123). -/
abbrev NEC_START_TO : Nat := 200
/-- ReadWait times out at Δt > 10 (R126). -/
abbrev NEC_MARK_TO : Nat := 10
/-- ReadGet times out at Δt > 30 (R129). -/
abbrev NEC_SPACE_TO : Nat := 30
/-- ReadGet: Δt ≤ 10 is bit 0, else bit 1 (R131). -/
abbrev NEC_ZERO_MAX : Nat := 10
/-- Stop times out at Δt > 10 (R133). -/
abbrev NEC_STOP_TO : Nat := 10
/-- Δt > 100 outside Init forces Init (R161). -/
abbrev RC6_GUARD : Nat := 100
/-- Start1 times out at Δt > 30 (R163). -/
abbrev RC6_S1_TO : Nat := 30
/-- Start2 times out at Δt > 15 (R165). -/
abbrev RC6_S2_TO : Nat := 15
/-- Start3 times out at Δt > 5 (R167). -/
abbrev RC6_S3_TO : Nat := 5
/-- ReadFieldWait times out at Δt > 10 (R169). -/
abbrev RC6_FIELD_TO : Nat := 10
/-- Δt ≤ 5 is a half-bit interval (R170, R174, R181). -/
abbrev RC6_HALF : Nat := 5
/-- ReadToggle1 times out at Δt > 30 (R173). -/
abbrev RC6_T1_TO : Nat := 30
/-- ReadToggle2: Δt < 10 consumes the toggle's second half only (R177). -/
abbrev RC6_T2_SPLIT : Nat := 10
/-- ReadGet times out at Δt > 10 (R180). -/
abbrev RC6_GET_TO : Nat := 10

end Sys2Proof.Machine
end

