-- ==== Sys2Proof/Machine/Nec.lean ====
section
/-! DEFINITION. The NEC decoder (41_nec_decoder.md R120 to R135): one function a phase row, each reading and writing only `nec`
and `nec_latch` (R38). A row is an ordered list of guards; the first that holds fires, else nothing changes (R105). -/

namespace Sys2Proof.Machine

/-- The global guard (R104, R121): it changes the phase only. -/
def necGuard (dt : Nat) (n : NecState) : NecState :=
  if n.phase ≠ .init ∧ NEC_GUARD < dt then { n with phase := .init } else n

/-- Init (R122). Δt is not read. -/
def necInit (lv : Bool) (n : NecState) : NecState :=
  if falls lv then { n with phase := .start } else n

/-- Start (R123 to R125). -/
def necStart (dt : Nat) (lv : Bool) (n : NecState) : NecState :=
  if NEC_START_TO < dt then { n with phase := .init }
  else if falls lv then { n with bitIndex := 31, acc := 0, phase := .readWait }
  else n

/-- ReadWait (R126 to R128). -/
def necReadWait (dt : Nat) (lv : Bool) (n : NecState) : NecState :=
  if NEC_MARK_TO < dt then { n with phase := .init }
  else if rises lv then { n with phase := .readGet }
  else n

/-- The value of a data bit, from its space (R131). -/
def necBit (dt : Nat) : Bool := decide (NEC_ZERO_MAX < dt)

/-- Storing a data bit and moving to the next one (R130, items 1 and 2). -/
def necStore (b : Bool) (n : NecState) : NecState :=
  { n with acc := storeBit n.acc n.bitIndex.toInt b, bitIndex := n.bitIndex - 1 }

/-- After the decrement: the 32nd bit leads to Stop with the index back at 31 (R130, item 3). -/
def necAdvance (n : NecState) : NecState :=
  if n.bitIndex.toInt < 0 then { n with bitIndex := 31, phase := .stop } else { n with phase := .readWait }

/-- ReadGet (R129 to R132). -/
def necReadGet (dt : Nat) (lv : Bool) (n : NecState) : NecState :=
  if NEC_SPACE_TO < dt then { n with phase := .init }
  else if falls lv then necAdvance (necStore (necBit dt) n)
  else n

/-- Stop (R133 to R135), with the commit of R134: the latch is overwritten, read or not (R68). -/
def necStop (dt : Nat) (lv : Bool) (n : NecState) (latch : Word) : NecState × Word :=
  if NEC_STOP_TO < dt then ({ n with phase := .init }, latch)
  else if rises lv then ({ n with phase := .init }, n.acc)
  else (n, latch)

/-- The row of the current phase (R120). -/
def necRow (dt : Nat) (lv : Bool) (n : NecState) (latch : Word) : NecState × Word :=
  match n.phase with
  | .init => (necInit lv n, latch)
  | .start => (necStart dt lv n, latch)
  | .readWait => (necReadWait dt lv n, latch)
  | .readGet => (necReadGet dt lv n, latch)
  | .stop => necStop dt lv n latch

/-- nec_step (R120): Δt from the old `last` (R102), `last` overwritten (R103), the guard, the row. -/
def necStep (ts : Timestamp) (lv : Bool) (n : NecState) (latch : Word) : NecState × Word :=
  necRow (deltaT ts n.last) lv (necGuard (deltaT ts n.last) { n with last := ts }) latch

end Sys2Proof.Machine
end

