-- ==== Sys2Proof/Machine/Flags.lean ====
section
/-! DEFINITION. The mid-bit flag `rc6.mid`, the only flag of IRDEC (10_state.md R29, R34): the tests that read it. It is set by
R171, R174, R181 and cleared by R168, R170, R182 (Machine/Rc6.lean). -/

namespace Sys2Proof.Machine

/-- ReadFieldWait counts a field bit: Δt > 5 or the flag is set (R170). -/
def countsFieldBit (dt : Nat) (mid : Bool) : Bool := decide (RC6_HALF < dt) || mid

/-- ReadToggle1 reads a half-bit: Δt ≤ 5 and the flag is clear (R174). -/
def isToggleHalf (dt : Nat) (mid : Bool) : Bool := decide (dt ≤ RC6_HALF) && !mid

/-- ReadGet reads a half-bit: Δt ≤ 5, the flag is clear and a bit is already stored (R181). -/
def isDataHalf (dt : Nat) (mid : Bool) (bitIndex : BitVec 8) : Bool :=
  decide (dt ≤ RC6_HALF) && !mid && decide (bitIndex ≠ 0)

end Sys2Proof.Machine
end

