-- ==== Sys2Proof/Machine/Rc6.lean ====
section
/-! DEFINITION. The RC6 decoder (42_rc6_decoder.md R160 to R183): one function a phase row, each reading and writing only `rc6`
and `rc6_latch` (R38). A row is an ordered list of guards; the first that holds fires, else nothing changes (R105). -/

namespace Sys2Proof.Machine

/-- The global guard (R104, R161): it changes the phase only; `field` and `mid` keep their values. -/
def rc6Guard (dt : Nat) (r : Rc6State) : Rc6State :=
  if r.phase ≠ .init ∧ RC6_GUARD < dt then { r with phase := .init } else r

/-- Init (R162). Δt is not read. -/
def rc6Init (lv : Bool) (r : Rc6State) : Rc6State :=
  if falls lv then { r with phase := .start1 } else r

/-- Start1 (R163, R164). -/
def rc6Start1 (dt : Nat) (lv : Bool) (r : Rc6State) : Rc6State :=
  if RC6_S1_TO < dt then { r with phase := .init }
  else if rises lv then { r with phase := .start2 }
  else r

/-- Start2 (R165, R166). -/
def rc6Start2 (dt : Nat) (lv : Bool) (r : Rc6State) : Rc6State :=
  if RC6_S2_TO < dt then { r with phase := .init }
  else if falls lv then { r with phase := .start3 }
  else r

/-- Start3 (R167, R168). -/
def rc6Start3 (dt : Nat) (lv : Bool) (r : Rc6State) : Rc6State :=
  if RC6_S3_TO < dt then { r with phase := .init }
  else if rises lv then { r with mid := false, phase := .readFieldWait }
  else r

/-- Counting one field bit (R170): three lead to ReadToggle1 with the count back at 0. -/
def rc6CountField (r : Rc6State) : Rc6State :=
  if r.field + 1 = 3 then { r with field := 0, mid := false, phase := .readToggle1 }
  else { r with field := r.field + 1, mid := false }

/-- ReadFieldWait (R169 to R171). The level is not read (R172). -/
def rc6ReadFieldWait (dt : Nat) (r : Rc6State) : Rc6State :=
  if RC6_FIELD_TO < dt then { r with field := 0, phase := .init }
  else if countsFieldBit dt r.mid then rc6CountField r
  else { r with mid := true }

/-- ReadToggle1 (R173 to R175). The level is not read. -/
def rc6ReadToggle1 (dt : Nat) (r : Rc6State) : Rc6State :=
  if RC6_T1_TO < dt then { r with phase := .init }
  else if isToggleHalf dt r.mid then { r with mid := true }
  else { r with phase := .readToggle2 }

/-- Storing a data bit, the first received at bit 15 (R182). -/
def rc6Store (lv : Bool) (r : Rc6State) : Rc6State :=
  { r with acc := storeBit r.acc (15 - (r.bitIndex.toNat : Int)) lv, bitIndex := r.bitIndex + 1, mid := false }

/-- After the store: the 16th bit commits the accumulator (R183); the latch is overwritten, read or not (R68). -/
def rc6Commit (r : Rc6State) (latch : Half) : Rc6State × Half :=
  if r.bitIndex = 16 then ({ r with acc := 0, bitIndex := 0, phase := .init }, r.acc) else (r, latch)

/-- rc6_get, the ReadGet body (R179 to R183). -/
def rc6Get (dt : Nat) (lv : Bool) (r : Rc6State) (latch : Half) : Rc6State × Half :=
  if RC6_GET_TO < dt then ({ r with phase := .init }, latch)
  else if isDataHalf dt r.mid r.bitIndex then ({ r with mid := true }, latch)
  else rc6Commit (rc6Store lv r) latch

/-- Which of its two named outcomes an event in ReadToggle2 has (R177, R178). -/
def toggleEnd (dt : Nat) : ToggleEnd :=
  if dt < RC6_T2_SPLIT then .consumedToggleOnly else .beganFirstDataBit

/-- The entry actions of ReadToggle2 (R176). -/
def rc6BeginData (r : Rc6State) : Rc6State :=
  { r with bitIndex := 0, acc := 0, phase := .readGet }

/-- ReadToggle2 (R176 to R178): the second outcome goes on into the ReadGet body on the same event. -/
def rc6ReadToggle2 (dt : Nat) (lv : Bool) (r : Rc6State) (latch : Half) : Rc6State × Half :=
  match toggleEnd dt with
  | .consumedToggleOnly => (rc6BeginData r, latch)
  | .beganFirstDataBit => rc6Get dt lv (rc6BeginData r) latch

/-- The row of the current phase (R160). -/
def rc6Row (dt : Nat) (lv : Bool) (r : Rc6State) (latch : Half) : Rc6State × Half :=
  match r.phase with
  | .init => (rc6Init lv r, latch)
  | .start1 => (rc6Start1 dt lv r, latch)
  | .start2 => (rc6Start2 dt lv r, latch)
  | .start3 => (rc6Start3 dt lv r, latch)
  | .readFieldWait => (rc6ReadFieldWait dt r, latch)
  | .readToggle1 => (rc6ReadToggle1 dt r, latch)
  | .readToggle2 => rc6ReadToggle2 dt lv r latch
  | .readGet => rc6Get dt lv r latch

/-- rc6_step (R160): Δt from the old `last` (R102), `last` overwritten (R103), the guard, the row. -/
def rc6Step (ts : Timestamp) (lv : Bool) (r : Rc6State) (latch : Half) : Rc6State × Half :=
  rc6Row (deltaT ts r.last) lv (rc6Guard (deltaT ts r.last) { r with last := ts }) latch

end Sys2Proof.Machine
end

