-- ==== Sys2Proof/Machine/Edge.lean ====
section
/-! DEFINITION. EDGE (40_edge_event.md R100): both decoders see every event. -/

namespace Sys2Proof.Machine

/-- nec_step's part of an EDGE: it writes `nec` and `nec_latch` only (R38). -/
def State.edgeNec (s : State) (ts : Timestamp) (lv : Bool) : State :=
  { s with nec := (necStep ts lv s.nec s.necLatch).1, necLatch := (necStep ts lv s.nec s.necLatch).2 }

/-- rc6_step's part of an EDGE: it writes `rc6` and `rc6_latch` only (R38). -/
def State.edgeRc6 (s : State) (ts : Timestamp) (lv : Bool) : State :=
  { s with rc6 := (rc6Step ts lv s.rc6 s.rc6Latch).1, rc6Latch := (rc6Step ts lv s.rc6 s.rc6Latch).2 }

/-- One edge event: nec_step, then rc6_step (R100, R101), no result (R84). -/
def State.applyEdge (s : State) (ts : Timestamp) (lv : Bool) : State :=
  ((s.edgeNec ts lv).edgeRc6 ts lv).withResult none

/-- EDGE ts, lv (R100). -/
def execEdge (ts : Timestamp) (lv : Bool) (s : State) : Host.Outcome State Fault Refusal :=
  .next (s.applyEdge ts lv)

end Sys2Proof.Machine
end

