-- ==== Sys2Proof/Machine/Dispatch.lean ====
section
/-! DEFINITION. One arm per operation (30_encoding.md R81). -/

namespace Sys2Proof.Machine

def exec (i : Instr) (s : State) : Host.Outcome State Fault Refusal :=
  match i with
  | .edge ts lv => Sys2Proof.Machine.execEdge ts lv s
  | .readNec => Sys2Proof.Machine.execReadNec s
  | .readRc6 => Sys2Proof.Machine.execReadRc6 s
  | .decode => Sys2Proof.Machine.execDecode s

end Sys2Proof.Machine
end

