-- ==== Sys2Proof/Machine/Schedule.lean ====
section
/-! DEFINITION. Applying one input to the machine, and taking the next one off the schedule (00_scope.md R6, 20_memory.md R69,
60_exceptions.md R262, R263, R270). -/

namespace Sys2Proof.Machine

/-- Applying an operation word: a legal one is executed, an illegal one refused (R86, R262, log 10). -/
def applyWord (w : Word) (s : State) : Host.Outcome State Fault Refusal :=
  match decodeWord w with
  | .op i => exec i s
  | .illegal v => .refused (.illegalOperation v)

/-- Applying one input of an agent. A bus read performs the consumer's operation (R61, log 15). -/
def applyInput (x : Input) (s : State) : Host.Outcome State Fault Refusal :=
  match x with
  | .op w => applyWord w s
  | .reset => .next s.applyReset
  | .busRead addr width => busRead addr width s
  | .busWrite addr width _ => busWrite addr width s

/-- The next input of the schedule is applied. With none left nothing changes: IRDEC does nothing between operations
(R108, R274). An instance with an ill-formed table has no run (R263, log 5). -/
def runNext (s : State) : Host.Outcome State Fault Refusal :=
  if s.codeTable.wellFormed then
    match s.schedule with
    | [] => .next s
    | x :: rest => applyInput x (s.withSchedule rest)
  else .refused .illFormedCodeTable

/-- Putting one operation word in front of what the agents apply (log 3). -/
def State.pushWord (s : State) (w : Word) : State := s.withSchedule (.op w :: s.schedule)

/-- The agent an input comes from (R270): EDGE is the producer's, reset the reset input's, the three consumer operations the
consumer's. DESIGN CHOICE (log 16): an illegal word and a bus write, to which R270 gives no agent, count as the consumer's; a bus
read is the consumer's operation (log 15). No step reads this. -/
def Input.agent : Input → Agent
  | .op w =>
    match decodeWord w with
    | .op (.edge _ _) => .producer
    | _ => .consumer
  | .reset => .reset
  | .busRead _ _ => .consumer
  | .busWrite _ _ _ => .consumer

/-- The input that applies an edge event: its operation word (R88). -/
def edgeInput (e : EdgeEvent) : Input := .op (encode (.edge e.ts e.lv))

/-- A run of edge events on the state alone, in order (R109). -/
def State.applyEvents : State → List EdgeEvent → State
  | s, [] => s
  | s, e :: rest => (s.applyEdge e.ts e.lv).applyEvents rest

end Sys2Proof.Machine
end

