-- ==== Sys2Proof/Machine/Step.lean ====
section
/-! DEFINITION. One step, and placing the next operation word. -/

namespace Sys2Proof.Machine

/-- One step: the first input of the schedule is applied, as one atomic operation (R6, R69). -/
def step (s : State) : Host.Outcome State Fault Refusal := runNext s

/-- The operation word placed where `step` takes its next input: in front of the schedule, so that the step runs it and what was
scheduled follows (log 3). -/
def State.withFetchWord (s : State) (nbits w : Nat) : State := s.pushWord (tableWord nbits w)

end Sys2Proof.Machine
end

