-- ==== Sys2Proof/Machine/Waveform.lean ====
section
/-! DEFINITION. The pseudo-operations as event sequences: WAVE, NEC_FRAME, RC6_FRAME (30_encoding.md R89 to R91). -/

namespace Sys2Proof.Machine

/-- WAVE (R89): the level becomes l1 at time t0, l2 at t0+d1, and so on; times are taken modulo 65536 and the last duration is
not used. -/
def waveEvents (t0 : Nat) : List (Bool × Nat) → List EdgeEvent
  | [] => []
  | (l, d) :: rest => { ts := BitVec.ofNat 16 t0, lv := l } :: waveEvents (t0 + d) rest

/-- A NEC data bit: a mark of 6 ticks, then a space of 17 ticks for 1 and 6 for 0 (R90). -/
def necBitSegs (b : Bool) : List (Bool × Nat) := [(false, 6), (true, if b then 17 else 6)]

/-- The data bits of a NEC frame, `code[31-k]` for k = 0..31 (R90). -/
def necDataBits (code : BitVec 32) : List Bool := (List.range 32).map fun k => code.getLsbD (31 - k)

/-- The segments of NEC_FRAME (R90). -/
def necFrameSegs (code : BitVec 32) : List (Bool × Nat) :=
  [(false, 90), (true, 45)] ++ (necDataBits code).flatMap necBitSegs ++ [(false, 6), (true, 0)]

/-- NEC_FRAME t0, code (R90). -/
def necFrame (t0 : Nat) (code : BitVec 32) : List EdgeEvent := waveEvents t0 (necFrameSegs code)

/-- A single-width RC6 bit in half-bit units (R91): 1 is mark then space, a mark is level 0. -/
def rc6BitUnits (b : Bool) : List Bool := if b then [false, true] else [true, false]

/-- The double-width toggle bit (R91). -/
def rc6ToggleUnits (b : Bool) : List Bool :=
  if b then [false, false, true, true] else [true, true, false, false]

/-- The data bits of an RC6 frame, data[15] down to data[0] (R91). -/
def rc6DataBits (data : BitVec 16) : List Bool := (List.range 16).map fun k => data.getLsbD (15 - k)

/-- The mode bits of an RC6 frame, mode[2], mode[1], mode[0] (R91). -/
def rc6ModeBits (mode : BitVec 3) : List Bool := [mode.getLsbD 2, mode.getLsbD 1, mode.getLsbD 0]

/-- The level sequence of RC6_FRAME in half-bit units (R91). -/
def rc6Units (mode : BitVec 3) (toggle : Bool) (data : BitVec 16) : List Bool :=
  [false, false, false, false, false, false, true, true] ++ rc6BitUnits true ++
    (rc6ModeBits mode).flatMap rc6BitUnits ++ rc6ToggleUnits toggle ++
    (rc6DataBits data).flatMap rc6BitUnits ++ [true]

/-- Merging the units that follow into a run of `n` units at level `l` (R91). -/
def runsFrom (l : Bool) (n : Nat) : List Bool → List (Bool × Nat)
  | [] => [(l, n)]
  | u :: rest => if u = l then runsFrom l (n + 1) rest else (l, n) :: runsFrom u 1 rest

/-- The runs of equal level of a sequence of units (R91). -/
def runsOf : List Bool → List (Bool × Nat)
  | [] => []
  | u :: rest => runsFrom u 1 rest

/-- The segments of RC6_FRAME: a run of n units lasts n·h ticks (R91). -/
def rc6FrameSegs (mode : BitVec 3) (toggle : Bool) (data : BitVec 16) (h : Nat) : List (Bool × Nat) :=
  (runsOf (rc6Units mode toggle data)).map fun run => (run.1, run.2 * h)

/-- RC6_FRAME t0, mode, toggle, data, h (R91). -/
def rc6Frame (t0 : Nat) (mode : BitVec 3) (toggle : Bool) (data : BitVec 16) (h : Nat) : List EdgeEvent :=
  waveEvents t0 (rc6FrameSegs mode toggle data h)

end Sys2Proof.Machine
end

