-- ==== Sys2Proof/Machine/Assembler.lean ====
section
/-! DEFINITION. The assembler: from a line of text to operation words (30_encoding.md R88 to R91). It refuses (`none`) what R88
does not spell. Conventions R88 leaves open are in log 12. -/

namespace Sys2Proof.Machine

/-- The value of a decimal digit. -/
def decDigit (c : Char) : Option Nat :=
  if '0'.toNat ≤ c.toNat ∧ c.toNat ≤ '9'.toNat then some (c.toNat - '0'.toNat) else none

/-- The value of a hexadecimal digit, of either case. -/
def hexDigit (c : Char) : Option Nat :=
  if 'a'.toNat ≤ c.toNat ∧ c.toNat ≤ 'f'.toNat then some (c.toNat - 'a'.toNat + 10)
  else if 'A'.toNat ≤ c.toNat ∧ c.toNat ≤ 'F'.toNat then some (c.toNat - 'A'.toNat + 10)
  else decDigit c

/-- Digits in a base after a value read so far. -/
def readDigits (base : Nat) (digit : Char → Option Nat) (acc : Nat) : List Char → Option Nat
  | [] => some acc
  | c :: cs =>
    match digit c with
    | some d => readDigits base digit (acc * base + d) cs
    | none => none

/-- A number, decimal or 0x hex (R88), with any leading zeros (log 12). -/
def readNumber : List Char → Option Nat
  | '0' :: 'x' :: c :: cs => readDigits 16 hexDigit 0 (c :: cs)
  | c :: cs => readDigits 10 decDigit 0 (c :: cs)
  | [] => none

/-- A run of characters between separators: a number if it begins with a digit, else a name. DESIGN CHOICE (log 12): every operand is
read by this one reader, so a level may be written `0x1` or `01`; R88 spells the forms of `<ts>` only. -/
def chunkToken (chunk : List Char) : Option Token :=
  match chunk with
  | [] => none
  | c :: _ => if (decDigit c).isSome then (readNumber chunk).map .num else some (.ident chunk)

/-- Putting the pending chunk, held reversed, before the tokens that follow. -/
def flushChunk (rev : List Char) (rest : Option (List Token)) : Option (List Token) :=
  match rev, rest with
  | [], rest => rest
  | c :: cs, some ts => (chunkToken (c :: cs).reverse).map (· :: ts)
  | _ :: _, none => none

/-- The tokens of a line after a pending chunk; `;` starts a comment (R88). -/
def tokensFrom (rev : List Char) : List Char → Option (List Token)
  | [] => flushChunk rev (some [])
  | c :: cs =>
    if c = ';' then flushChunk rev (some [])
    else if c = ' ' ∨ c = '\t' then flushChunk rev (tokensFrom [] cs)
    else if c = ',' then flushChunk rev ((tokensFrom [] cs).map (.comma :: ·))
    else if c = '(' then flushChunk rev ((tokensFrom [] cs).map (.lpar :: ·))
    else if c = ')' then flushChunk rev ((tokensFrom [] cs).map (.rpar :: ·))
    else tokensFrom (c :: rev) cs

/-- The segments of a WAVE: `, (l, d)` one or more times (R89). -/
def parseSegs : List Token → Option (List (Nat × Nat))
  | [] => some []
  | .comma :: .lpar :: .num l :: .comma :: .num d :: .rpar :: rest => (parseSegs rest).map ((l, d) :: ·)
  | _ => none

/-- The operands after a mnemonic (R88 to R91). RC6_FRAME's half-bit length defaults to 4 (R91). -/
def parseOp (name : List Char) (args : List Token) : Option SourceOp :=
  if name = "EDGE".toList then
    match args with
    | [.num ts, .comma, .num lv] => some (.edge ts lv)
    | _ => none
  else if name = "READ_NEC".toList then if args = [] then some .readNec else none
  else if name = "READ_RC6".toList then if args = [] then some .readRc6 else none
  else if name = "DECODE".toList then if args = [] then some .decode else none
  else if name = "WAVE".toList then
    match args with
    | .num t0 :: rest => (parseSegs rest).map (.wave t0 ·)
    | _ => none
  else if name = "NEC_FRAME".toList then
    match args with
    | [.num t0, .comma, .num code] => some (.necFrame t0 code)
    | _ => none
  else if name = "RC6_FRAME".toList then
    match args with
    | [.num t0, .comma, .num mode, .comma, .num toggle, .comma, .num data] =>
        some (.rc6Frame t0 mode toggle data 4)
    | [.num t0, .comma, .num mode, .comma, .num toggle, .comma, .num data, .comma, .num h] =>
        some (.rc6Frame t0 mode toggle data h)
    | _ => none
  else none

/-- The bit a source number 0 or 1 stands for. -/
def bitOf (n : Nat) : Bool := decide (n = 1)

/-- The words of a waveform's EDGE operations (R88, R89). -/
def edgeWords (evs : List EdgeEvent) : List Word := evs.map fun e => encode (.edge e.ts e.lv)

/-- The words of a source operation whose operands are in range. -/
def expandOp : SourceOp → List Word
  | .edge ts lv => [encode (.edge (BitVec.ofNat 16 ts) (bitOf lv))]
  | .readNec => [encode .readNec]
  | .readRc6 => [encode .readRc6]
  | .decode => [encode .decode]
  | .wave t0 segs => edgeWords (waveEvents t0 (segs.map fun seg => (bitOf seg.1, seg.2)))
  | .necFrame t0 code => edgeWords (necFrame t0 (BitVec.ofNat 32 code))
  | .rc6Frame t0 mode toggle data h =>
      edgeWords (rc6Frame t0 (BitVec.ofNat 3 mode) (bitOf toggle) (BitVec.ofNat 16 data) h)

/-- Assembling a source operation: refused when an operand is out of range, never reduced modulo (R88). -/
def assembleOp (op : SourceOp) : Option (List Word) :=
  if op.wellFormed then some (expandOp op) else none

/-- Assembling one line of text: an operation, or nothing but a comment (R88). -/
def assembleLine (line : List Char) : Option (List Word) :=
  match tokensFrom [] line with
  | some [] => some []
  | some (.ident name :: args) => (parseOp name args).bind assembleOp
  | _ => none

/-- Assembling a program, one operation per line (R88). -/
def assemble : List (List Char) → Option (List Word)
  | [] => some []
  | line :: rest =>
    match assembleLine line, assemble rest with
    | some ws, some more => some (ws ++ more)
    | _, _ => none

end Sys2Proof.Machine
end

