-- ==== Sys2Proof/Safety.lean ====
section
/-! DEFINITION. What claims say about a run: the invariants of 10_state.md R37 and R30, the inputs to which the spec gives a
meaning, what an observer sees, and states that differ only where nothing can be observed (70_reset_and_hazards.md R292). -/

namespace Sys2Proof.Machine

/-- R37 for `nec`: the index lies in 0..31. -/
abbrev NecState.Inv (n : NecState) : Prop := 0 ≤ n.bitIndex.toInt ∧ n.bitIndex.toInt ≤ 31

/-- R37 for `rc6`: the index lies in 0..15 and the field count in 0..2. -/
abbrev Rc6State.Inv (r : Rc6State) : Prop := r.bitIndex.toNat ≤ 15 ∧ r.field.toNat ≤ 2

/-- The invariant of the whole machine: R37, R30 (both decoders hold the same last timestamp), and an instance that exists (R41). -/
abbrev State.Inv (s : State) : Prop :=
  s.nec.Inv ∧ s.rc6.Inv ∧ s.nec.last = s.rc6.last ∧ s.codeTable.wellFormed = true

/-- A bus access the word view gives a meaning: 32 bits wide, at offset 0, 4 or 8 of a present window (R61, R63). -/
def meaningfulAccess (busBase : Option Nat) (addr width : Nat) : Bool :=
  match busBase with
  | none => false
  | some base => decide (width = 32) && (decide (addr = base) || decide (addr = base + 4) || decide (addr = base + 8))

/-- An input to which the spec gives a meaning on this instance. -/
def State.meaningful (s : State) : Input → Bool
  | .op w => (decodeWord w).toOption.isSome
  | .reset => true
  | .busRead addr width => meaningfulAccess s.busBase addr width
  | .busWrite addr width _ => meaningfulAccess s.busBase addr width

/-- A state whose scheduled inputs all have a meaning. -/
def State.LegalSchedule (s : State) : Prop := ∀ x ∈ s.schedule, s.meaningful x = true

/-- What an outcome shows outside (R36): the latches (through the accessors), the last result word, and a refusal. -/
inductive Seen where
  | running (necLatch : Word) (rc6Latch : Half) (result : Option Word)
  | refused (r : Refusal)
deriving DecidableEq, Repr

/-- What is seen of an outcome. There is no fault to see (R260). -/
def seen (o : Host.Outcome State Fault Refusal) : Seen :=
  match o with
  | .next s => .running s.necLatch s.rc6Latch s.result
  | .refused r => .refused r
  | .fault f => nomatch f

/-- Two states right after reset that differ at most in the fields whose reset values R292 says cannot be observed
(`nec.last`, `nec.acc`, `nec.bit_index`, `rc6.last`, `rc6.acc`, `rc6.bit_index`, and `rc6.mid`, which is cleared before it is read):
both decoders in Init, the same `rc6.field`, and everything outside the decoders equal. -/
structure SameButUnobservable (s t : State) : Prop where
  necInit : s.nec.phase = .init
  necInit' : t.nec.phase = .init
  rc6Init : s.rc6.phase = .init
  rc6Init' : t.rc6.phase = .init
  field : s.rc6.field = t.rc6.field
  necLatch : s.necLatch = t.necLatch
  rc6Latch : s.rc6Latch = t.rc6Latch
  result : s.result = t.result
  codeTable : s.codeTable = t.codeTable
  busBase : s.busBase = t.busBase
  schedule : s.schedule = t.schedule

/-- Every timestamp of a run of events moved by a constant, modulo 65536 (R140). -/
def shiftEvents (c : Timestamp) (evs : List EdgeEvent) : List EdgeEvent :=
  evs.map fun e => { e with ts := e.ts + c }

/-- 68 events with the levels of a NEC frame, 0, 1, 0, then (1, 0) thirty-two times, then 1: odd events rise (R137). -/
def necShapedEvents (ts : Nat → Timestamp) : List EdgeEvent :=
  (List.range 68).map fun i => { ts := ts i, lv := decide (i % 2 = 1) }

/-- d_i of R137: the Δt of event i, counted from event 0. -/
def intervalBefore (ts : Nat → Timestamp) (i : Nat) : Nat := deltaT (ts i) (ts (i - 1))

/-- The acceptance windows of R137 for code `c`: leader mark and space, the mark and the space of each bit, the stop mark. -/
def NecWindows (ts : Nat → Timestamp) (c : Word) : Prop :=
  intervalBefore ts 1 ≤ 200 ∧ intervalBefore ts 2 ≤ 200 ∧
  (∀ k, k < 32 → intervalBefore ts (3 + 2 * k) ≤ 10 ∧
    (if c.getLsbD (31 - k) then 11 ≤ intervalBefore ts (4 + 2 * k) ∧ intervalBefore ts (4 + 2 * k) ≤ 30
      else intervalBefore ts (4 + 2 * k) ≤ 10)) ∧
  intervalBefore ts 67 ≤ 10

end Sys2Proof.Machine
end

