-- ==== Sys2Proof/Certificates/Slice0/Obligations.lean ====
section
/-! DEFINITION. The statements about IRDEC. Numbers are the spec's, not the model's threshold names. Where a statement names a
`next` state by an update of `s`, every field the update does not name is unchanged: that is the statement's frame. -/

open Sys2Proof Sys2Proof.Machine

/-! ## Encoding (30_encoding.md) -/

/-- Decoding the word of a well-formed operation gives the operation back, for every operand value (R82, R83, R88). -/
def Obligations.DecodeOfEncodeIsTheOperation : Prop :=
  ∀ i : Instr, i.wellFormed = true → decodeWord (encode i) = .op i

/-- A legal word is the encoding of the operation it decodes to: no operation has two words (R82, R86). -/
def Obligations.LegalWordIsTheEncodingOfItsOperation : Prop :=
  ∀ (w : Word) (i : Instr), decodeWord w = .op i → encode i = w

/-- R82: a word encodes the operation of a row exactly when `(w & mask) = match`, with EDGE's operands T and L (R83). -/
def Obligations.WordsDecodeByMaskAndMatch : Prop :=
  ∀ w : Word,
    (w &&& 0xFFFE0000#32 = 0x20000000#32 ↔ ∃ ts lv, decodeWord w = .op (.edge ts lv)) ∧
    (∀ ts lv, decodeWord w = .op (.edge ts lv) →
      ts.toNat = w.toNat % 65536 ∧ lv.toNat = w.toNat / 65536 % 2) ∧
    (w &&& 0xFFFFFFFF#32 = 0x40000000#32 ↔ decodeWord w = .op .readNec) ∧
    (w &&& 0xFFFFFFFF#32 = 0x60000000#32 ↔ decodeWord w = .op .readRc6) ∧
    (w &&& 0xFFFFFFFF#32 = 0x80000000#32 ↔ decodeWord w = .op .decode)

/-- R86, R262: the illegal words are those with op 000, 101, 110 or 111 and those with a legal op and a bit set outside the row's
free fields; applying one is refused under its own word. -/
def Obligations.IllegalWordsAreExactlyTheRefusedOnes : Prop :=
  (∀ w : Word, decodeWord w = .illegal w ↔
    (w.toNat / 2 ^ 29 ∈ [0, 5, 6, 7] ∨ (w.toNat / 2 ^ 29 = 1 ∧ w.toNat / 2 ^ 17 % 2 ^ 12 ≠ 0) ∨
      (w.toNat / 2 ^ 29 ∈ [2, 3, 4] ∧ w.toNat % 2 ^ 29 ≠ 0))) ∧
  ∀ (s : State) (w : Word) (rest : List Input), s.codeTable.wellFormed = true →
    s.schedule = .op w :: rest → decodeWord w = .illegal w → step s = .refused (.illegalOperation w)

/-- A few words written out from R82 and the examples of R88: what each decodes to. -/
def Obligations.SpecWordsDecodeAsWritten : Prop :=
  decodeWord 0b00100000000000000000001111101000#32 = .op (.edge 1000 false) ∧
  decodeWord 0b00100000000000010000000000000100#32 = .op (.edge 4 true) ∧
  decodeWord 0b01000000000000000000000000000000#32 = .op .readNec ∧
  decodeWord 0b01100000000000000000000000000000#32 = .op .readRc6 ∧
  decodeWord 0b10000000000000000000000000000000#32 = .op .decode ∧
  decodeWord 0#32 = .illegal 0#32

/-- The assembler's EDGE (R88): in range it is the word `0x20000000 | (lv << 16) | ts`; out of range it is refused, never
reduced modulo. -/
def Obligations.AssemblerEncodesEdgeOrRefusesIt : Prop :=
  ∀ ts lv : Nat,
    (ts ≤ 65535 → lv ≤ 1 →
      ∃ w : Word, assembleOp (.edge ts lv) = some [w] ∧ w.toNat = 0x20000000 + lv * 65536 + ts) ∧
    (65535 < ts ∨ 1 < lv → assembleOp (.edge ts lv) = none)

/-- R89: the assembler expands a WAVE of n segments, whether or not consecutive levels differ, into n EDGE words; the i-th has the
i-th level and the time t0 plus the durations before it, modulo 65536. -/
def Obligations.WaveExpandsSegmentBySegment : Prop :=
  ∀ (t0 : Nat) (segs : List (Nat × Nat)), segs ≠ [] → (∀ seg ∈ segs, seg.1 ≤ 1) →
    ∃ ws : List Word, assembleOp (.wave t0 segs) = some ws ∧ ws.length = segs.length ∧
      ∀ i l d, segs[i]? = some (l, d) → ∃ (w : Word) (ts : Timestamp) (lv : Bool), ws[i]? = some w ∧
        decodeWord w = .op (.edge ts lv) ∧ lv.toNat = l ∧
        ts.toNat = (t0 + ((segs.take i).map fun seg => seg.2).sum) % 65536

/-- R91: an RC6_FRAME is the WAVE at t0 of the runs of equal level of its unit sequence (leader, start bit 1, mode, toggle at double width,
data, one unit at level 1), each run merged whole and h ticks a unit. -/
def Obligations.Rc6FrameMergesItsUnits : Prop :=
  ∀ (t0 : Nat) (mode : BitVec 3) (toggle : Bool) (data : BitVec 16) (h : Nat), ∃ runs : List (Bool × Nat),
    rc6Frame t0 mode toggle data h = waveEvents t0 (runs.map fun run => (run.1, run.2 * h)) ∧
    assembleOp (.rc6Frame t0 mode.toNat toggle.toNat data.toNat h) =
      some ((rc6Frame t0 mode toggle data h).map fun e => encode (.edge e.ts e.lv)) ∧
    (∀ run ∈ runs, 0 < run.2) ∧
    (∀ (i : Nat) (r r' : Bool × Nat), runs[i]? = some r → runs[i + 1]? = some r' → r.1 ≠ r'.1) ∧
    (runs.flatMap fun run => List.replicate run.2 run.1) =
      List.replicate 6 false ++ List.replicate 2 true ++ [false, true] ++
      ([2, 1, 0].flatMap fun k => if mode.getLsbD k then [false, true] else [true, false]) ++
      (if toggle then [false, false, true, true] else [true, true, false, false]) ++
      ([15, 14, 13, 12, 11, 10, 9, 8, 7, 6, 5, 4, 3, 2, 1, 0].flatMap fun k =>
        if data.getLsbD k then [false, true] else [true, false]) ++ [true]

/-! ## Names and result words -/

/-- The numbers of KeyIds (R39, R85) and of the phases (R21, R25). -/
def Obligations.NamesHaveTheSpecsNumbers : Prop :=
  [KeyId.none, .enter, .esc, .up, .down, .left, .right].map (fun k => (keyResultWord k).toNat) =
    [0, 1, 2, 3, 4, 5, 6] ∧
  [NecPhase.init, .start, .readWait, .readGet, .stop].map necPhaseNumber = [0, 1, 2, 3, 4] ∧
  [Rc6Phase.init, .start1, .start2, .start3, .readFieldWait, .readToggle1, .readToggle2, .readGet].map
    rc6PhaseNumber = [0, 1, 2, 3, 4, 5, 6, 7]

/-- R84, R85: EDGE's result word is 0, READ_NEC's the latch unchanged, READ_RC6's the latch with bits [31:16] zero, DECODE's a
KeyId code at most 6. -/
def Obligations.ResultWordsOfTheOperations : Prop :=
  ∀ s : State,
    (∀ ts lv, ∃ t, exec (.edge ts lv) s = .next t ∧ t.resultWord = 0) ∧
    (∃ t, exec .readNec s = .next t ∧ t.resultWord = s.necLatch) ∧
    (∃ t, exec .readRc6 s = .next t ∧ t.resultWord.toNat = s.rc6Latch.toNat) ∧
    (∃ t k, exec .decode s = .next t ∧ t.resultWord = keyResultWord k ∧ t.resultWord.toNat ≤ 6)

/-! ## Steps, reset, instances -/

/-- When the first scheduled input is a word that decodes to an operation, the step is exec of that operation with the input taken
off the schedule; placing an operation's word with `withFetchWord` makes the step run exactly it. -/
def Obligations.StepRunsTheDecodedOperation : Prop :=
  (∀ (s : State) (w : Word) (rest : List Input) (i : Instr), s.codeTable.wellFormed = true →
    s.schedule = .op w :: rest → decodeWord w = .op i → step s = exec i { s with schedule := rest }) ∧
  ∀ (s : State) (i : Instr), s.codeTable.wellFormed = true →
    step (s.withFetchWord 32 (encode i).toNat) = exec i s

/-- R108: with nothing applied, nothing changes. (That such a step is a next state is the model's choice, log 2.) -/
def Obligations.IdleStepChangesNothing : Prop :=
  ∀ s : State, s.codeTable.wellFormed = true → s.schedule = [] → step s = .next s

/-- R290, R291: applying the reset input puts every state field to its reset value in one step and leaves CODE_TABLE unchanged. -/
def Obligations.ResetInputRestoresTheResetState : Prop :=
  ∀ (s : State) (rest : List Input), s.codeTable.wellFormed = true → s.schedule = .reset :: rest →
    ∃ t, step s = .next t ∧
      t.nec = { phase := .init, acc := 0, bitIndex := 0, last := 0 } ∧
      t.rc6 = { phase := .init, acc := 0, bitIndex := 0, field := 0, mid := false, last := 0 } ∧
      t.necLatch = 0 ∧ t.rc6Latch = 0 ∧ t.codeTable = s.codeTable

/-- R291: the values right after reset. -/
def Obligations.ResetStateValues : Prop :=
  State.reset.nec = { phase := .init, acc := 0, bitIndex := 0, last := 0 } ∧
  State.reset.rc6 = { phase := .init, acc := 0, bitIndex := 0, field := 0, mid := false, last := 0 } ∧
  State.reset.necLatch = 0 ∧ State.reset.rc6Latch = 0

/-- R41: what a well-formed CODE_TABLE is, (a) to (d). -/
def Obligations.WellFormedTableConditions : Prop :=
  ∀ t : CodeTable, t.wellFormed = true ↔
    ((∀ e ∈ t.nec, e.2 ≠ .none) ∧ (∀ e ∈ t.rc6, e.2 ≠ .none)) ∧
    (t.nec.length = 6 ∧ ∀ k : KeyId, k ≠ .none → (t.nec.filter fun e => decide (e.2 = k)).length = 1) ∧
    (t.rc6.length ≤ 12 ∧ ∀ k : KeyId, k ≠ .none → (t.rc6.filter fun e => decide (e.2 = k)).length ≤ 2) ∧
    ((∀ e ∈ t.nec, e.1 ≠ 0) ∧ (∀ e ∈ t.rc6, e.1 ≠ 0))

/-- A badly formed table is refused when the instance is built, a well-formed one gives an instance in its reset state (R41, R263). The
last clause is the model's own (log 5, DEDUCED): every step of a State that holds a badly formed table is refused. -/
def Obligations.BadTableHasNoRun : Prop :=
  (∀ (t : CodeTable) (b : Option Nat),
    (t.wellFormed = true → ∃ s, buildInstance t b = .next s ∧ s.codeTable = t ∧ s.nec = NecState.reset ∧
      s.rc6 = Rc6State.reset ∧ s.necLatch = 0 ∧ s.rc6Latch = 0) ∧
    (t.wellFormed = false → buildInstance t b = .refused .illFormedCodeTable)) ∧
  ∀ s : State, s.codeTable.wellFormed = false → step s = .refused .illFormedCodeTable

/-! ## EDGE, the parts common to both decoders (40_edge_event.md) -/

/-- R100: EDGE completes in every state, with nec_step's and rc6_step's effects and nothing else changed; it returns no value. -/
def Obligations.EdgeRunsBothDecoders : Prop :=
  ∀ (ts : Timestamp) (lv : Bool) (s : State),
    exec (.edge ts lv) s = .next { s with
      nec := (necStep ts lv s.nec s.necLatch).1, necLatch := (necStep ts lv s.nec s.necLatch).2,
      rc6 := (rc6Step ts lv s.rc6 s.rc6Latch).1, rc6Latch := (rc6Step ts lv s.rc6 s.rc6Latch).2,
      result := none }

/-- R101: nec_step runs before rc6_step, and running them in the other order gives the same state. -/
def Obligations.OrderOfTheDecodersIsUnobservable : Prop :=
  ∀ (ts : Timestamp) (lv : Bool) (s : State),
    exec (.edge ts lv) s = .next (((s.edgeNec ts lv).edgeRc6 ts lv).withResult none) ∧
    exec (.edge ts lv) s = .next (((s.edgeRc6 ts lv).edgeNec ts lv).withResult none)

/-- R38: what EDGE does to `nec` and `nec_latch` depends on these alone, and likewise for `rc6` and `rc6_latch`. -/
def Obligations.DecodersDoNotSeeEachOther : Prop :=
  ∀ (ts : Timestamp) (lv : Bool) (s s' : State), ∃ t t',
    exec (.edge ts lv) s = .next t ∧ exec (.edge ts lv) s' = .next t' ∧
    (s.nec = s'.nec → s.necLatch = s'.necLatch → t.nec = t'.nec ∧ t.necLatch = t'.necLatch) ∧
    (s.rc6 = s'.rc6 → s.rc6Latch = s'.rc6Latch → t.rc6 = t'.rc6 ∧ t.rc6Latch = t'.rc6Latch)

/-- R102: Δt is the difference modulo 2^16, unsigned: k ticks before gives 65536 - k, a real gap of g ticks gives g mod 65536. -/
def Obligations.DeltaIsTheGapModulo65536 : Prop :=
  ∀ ts last : Timestamp,
    (deltaT ts last : Int) = ((ts.toNat : Int) - (last.toNat : Int)) % 65536 ∧
    (∀ k, 1 ≤ k → k ≤ 65535 → deltaT (last - BitVec.ofNat 16 k) last = 65536 - k) ∧
    (∀ g, deltaT (last + BitVec.ofNat 16 g) last = g % 65536) ∧
    deltaT 4 65530 = 10

/-- R103 (and R30): every EDGE overwrites both last timestamps, whatever the phases. -/
def Obligations.EveryEdgeOverwritesTheLastTimestamps : Prop :=
  ∀ (ts : Timestamp) (lv : Bool) (s : State),
    ∃ t, exec (.edge ts lv) s = .next t ∧ t.nec.last = ts ∧ t.rc6.last = ts

/-- R104: outside Init an event past the guard is handled exactly as an Init event, by each decoder; in particular an event more than
300 ticks after the last one is handled from Init by both (R299). -/
def Obligations.GuardedEventIsHandledFromInit : Prop :=
  ∀ (ts : Timestamp) (lv : Bool) (s : State),
    (300 < deltaT ts s.nec.last →
      exec (.edge ts lv) s = exec (.edge ts lv) { s with nec := { s.nec with phase := .init } }) ∧
    (100 < deltaT ts s.rc6.last →
      exec (.edge ts lv) s = exec (.edge ts lv) { s with rc6 := { s.rc6 with phase := .init } })

/-! ## The NEC decoder (41_nec_decoder.md) -/

/-- R121: past the guard, the event is an Init event; the index, the accumulator and the latch stay. -/
def Obligations.NecGuardRestartsOnTheSameEvent : Prop :=
  ∀ (ts : Timestamp) (lv : Bool) (s : State), s.nec.phase ≠ .init → 300 < deltaT ts s.nec.last →
    ∃ t, exec (.edge ts lv) s = .next t ∧ t.necLatch = s.necLatch ∧
      t.nec = { s.nec with last := ts, phase := if lv = false then .start else .init }

/-- R122: in Init a falling edge starts a frame and a rising one changes nothing; Δt is not read. -/
def Obligations.NecInitRow : Prop :=
  ∀ (ts : Timestamp) (lv : Bool) (s : State), s.nec.phase = .init →
    ∃ t, exec (.edge ts lv) s = .next t ∧ t.necLatch = s.necLatch ∧
      t.nec = { s.nec with last := ts, phase := if lv = false then .start else .init }

/-- R123, R124, R125: Start. -/
def Obligations.NecStartRow : Prop :=
  ∀ (ts : Timestamp) (lv : Bool) (s : State), s.nec.phase = .start → deltaT ts s.nec.last ≤ 300 →
    ∃ t, exec (.edge ts lv) s = .next t ∧ t.necLatch = s.necLatch ∧
      t.nec =
        if 200 < deltaT ts s.nec.last then { s.nec with last := ts, phase := .init }
        else if lv = false then { phase := .readWait, acc := 0, bitIndex := 31, last := ts }
        else { s.nec with last := ts }

/-- R126, R127, R128: ReadWait. -/
def Obligations.NecReadWaitRow : Prop :=
  ∀ (ts : Timestamp) (lv : Bool) (s : State), s.nec.phase = .readWait → deltaT ts s.nec.last ≤ 300 →
    ∃ t, exec (.edge ts lv) s = .next t ∧ t.necLatch = s.necLatch ∧
      t.nec =
        if 10 < deltaT ts s.nec.last then { s.nec with last := ts, phase := .init }
        else if lv = true then { s.nec with last := ts, phase := .readGet }
        else { s.nec with last := ts }

/-- R129, R132: ReadGet, the timeout and the rising edge. -/
def Obligations.NecReadGetTimeoutAndRisingEdge : Prop :=
  ∀ (ts : Timestamp) (lv : Bool) (s : State), s.nec.phase = .readGet → deltaT ts s.nec.last ≤ 300 →
    (30 < deltaT ts s.nec.last ∨ lv = true) →
    ∃ t, exec (.edge ts lv) s = .next t ∧ t.necLatch = s.necLatch ∧
      t.nec =
        if 30 < deltaT ts s.nec.last then { s.nec with last := ts, phase := .init }
        else { s.nec with last := ts }

/-- R130, R131: ReadGet, a falling edge in time stores the bit (0 up to 10 ticks, 1 from 11) at the index and no other bit, decrements
the index, read as a signed number, and after the 32nd bit goes to Stop with the index back at 31. -/
def Obligations.NecReadGetStoresTheBit : Prop :=
  ∀ (ts : Timestamp) (s : State), s.nec.Inv → s.nec.phase = .readGet → deltaT ts s.nec.last ≤ 30 →
    ∃ t, exec (.edge ts false) s = .next t ∧ t.necLatch = s.necLatch ∧ t.nec.last = ts ∧
      (∀ j : Nat, j < 32 → t.nec.acc.getLsbD j =
        if (j : Int) = s.nec.bitIndex.toInt then decide (10 < deltaT ts s.nec.last) else s.nec.acc.getLsbD j) ∧
      t.nec.bitIndex.toInt = (if s.nec.bitIndex = 0 then 31 else s.nec.bitIndex.toInt - 1) ∧
      t.nec.phase = (if s.nec.bitIndex = 0 then .stop else .readWait)

/-- R133, R134, R135: Stop; the rising edge in time commits the accumulator, whatever the latch held (R68), and keeps it. -/
def Obligations.NecStopRow : Prop :=
  ∀ (ts : Timestamp) (lv : Bool) (s : State), s.nec.phase = .stop → deltaT ts s.nec.last ≤ 300 →
    ∃ t, exec (.edge ts lv) s = .next t ∧
      t.necLatch = (if deltaT ts s.nec.last ≤ 10 ∧ lv = true then s.nec.acc else s.necLatch) ∧
      t.nec =
        if 10 < deltaT ts s.nec.last then { s.nec with last := ts, phase := .init }
        else if lv = true then { s.nec with last := ts, phase := .init }
        else { s.nec with last := ts }

/-- R137: a run of 68 events of the NEC shape that starts in Init, or past the guard, commits code c if and only if every interval lies
in its window. "Commits c" is: the latch ends at c whatever it held before. On the way event 0 leads to Start, event 2 to ReadWait,
event 66 to Stop, and event 67 back to Init. -/
def Obligations.NecFrameCommitsIffInTheWindows : Prop :=
  ∀ (s : State) (ts : Nat → Timestamp) (c : Word),
    s.nec.phase = .init ∨ 300 < deltaT (ts 0) s.nec.last →
    ((∀ v : Word, (State.applyEvents { s with necLatch := v } (necShapedEvents ts)).necLatch = c) ↔
      NecWindows ts c) ∧
    (NecWindows ts c →
      (s.applyEvents ((necShapedEvents ts).take 1)).nec.phase = .start ∧
      (s.applyEvents ((necShapedEvents ts).take 3)).nec.phase = .readWait ∧
      (s.applyEvents ((necShapedEvents ts).take 67)).nec.phase = .stop ∧
      (s.applyEvents (necShapedEvents ts)).nec.phase = .init)

/-- R90: NEC_FRAME is the WAVE the spec writes out, which the assembler turns into 68 EDGE words; its durations lie inside every window,
and it commits its code. -/
def Obligations.NecFrameCommitsItsCode : Prop :=
  ∀ (t0 : Nat) (code : Word) (s : State),
    s.nec.phase = .init ∨ 300 < deltaT (BitVec.ofNat 16 t0) s.nec.last →
    necFrame t0 code = waveEvents t0 ([(false, 90), (true, 45)] ++
      ((List.range 32).flatMap fun k => [(false, 6), (true, if code.getLsbD (31 - k) then 17 else 6)]) ++
      [(false, 6), (true, 0)]) ∧
    (necFrame t0 code).length = 68 ∧
    assembleOp (.necFrame t0 code.toNat) = some ((necFrame t0 code).map fun e => encode (.edge e.ts e.lv)) ∧
    (∃ ts, necFrame t0 code = necShapedEvents ts ∧ NecWindows ts code) ∧
    (s.applyEvents (necFrame t0 code)).necLatch = code

/-- R138: from Init, or past the guard, a run of at most 66 events, of any levels and times, never reaches the NEC latch: a commit takes
two falling edges to reach ReadWait, 32 data bits of two events each and the stop edge. -/
def Obligations.TruncatedNecRunsNeverReachTheLatch : Prop :=
  ∀ (s : State) (e : EdgeEvent) (evs : List EdgeEvent),
    s.nec.phase = .init ∨ 300 < deltaT e.ts s.nec.last → evs.length + 1 ≤ 66 →
    (s.applyEvents (e :: evs)).necLatch = s.necLatch

/-- R140: moving every timestamp of a run by a constant, modulo 65536, leads through the same states and commits the same codes, when
both first events are handled in Init (log 14); for either decoder. -/
def Obligations.RolloverIsExact : Prop :=
  ∀ (s : State) (c : Timestamp) (e : EdgeEvent) (evs : List EdgeEvent),
    (s.nec.phase = .init ∨ (300 < deltaT e.ts s.nec.last ∧ 300 < deltaT (e.ts + c) s.nec.last) →
      (s.applyEvents (shiftEvents c (e :: evs))).nec =
          { (s.applyEvents (e :: evs)).nec with last := (s.applyEvents (e :: evs)).nec.last + c } ∧
        (s.applyEvents (shiftEvents c (e :: evs))).necLatch = (s.applyEvents (e :: evs)).necLatch) ∧
    (s.rc6.phase = .init ∨ (100 < deltaT e.ts s.rc6.last ∧ 100 < deltaT (e.ts + c) s.rc6.last) →
      (s.applyEvents (shiftEvents c (e :: evs))).rc6 =
          { (s.applyEvents (e :: evs)).rc6 with last := (s.applyEvents (e :: evs)).rc6.last + c } ∧
        (s.applyEvents (shiftEvents c (e :: evs))).rc6Latch = (s.applyEvents (e :: evs)).rc6Latch)

/-! ## The RC6 decoder (42_rc6_decoder.md) -/

/-- R161: past the guard, the event is an Init event; the field count, the flag and every other field stay. -/
def Obligations.Rc6GuardRestartsOnTheSameEvent : Prop :=
  ∀ (ts : Timestamp) (lv : Bool) (s : State), s.rc6.phase ≠ .init → 100 < deltaT ts s.rc6.last →
    ∃ t, exec (.edge ts lv) s = .next t ∧ t.rc6Latch = s.rc6Latch ∧
      t.rc6 = { s.rc6 with last := ts, phase := if lv = false then .start1 else .init }

/-- R162 to R168: Init, Start1, Start2, Start3. -/
def Obligations.Rc6LeaderRows : Prop :=
  ∀ (ts : Timestamp) (lv : Bool) (s : State), ∃ t, exec (.edge ts lv) s = .next t ∧
    (s.rc6.phase = .init → t.rc6Latch = s.rc6Latch ∧
      t.rc6 = { s.rc6 with last := ts, phase := if lv = false then .start1 else .init }) ∧
    (s.rc6.phase = .start1 → deltaT ts s.rc6.last ≤ 100 → t.rc6Latch = s.rc6Latch ∧
      t.rc6 =
        if 30 < deltaT ts s.rc6.last then { s.rc6 with last := ts, phase := .init }
        else if lv = true then { s.rc6 with last := ts, phase := .start2 }
        else { s.rc6 with last := ts }) ∧
    (s.rc6.phase = .start2 → deltaT ts s.rc6.last ≤ 100 → t.rc6Latch = s.rc6Latch ∧
      t.rc6 =
        if 15 < deltaT ts s.rc6.last then { s.rc6 with last := ts, phase := .init }
        else if lv = false then { s.rc6 with last := ts, phase := .start3 }
        else { s.rc6 with last := ts }) ∧
    (s.rc6.phase = .start3 → deltaT ts s.rc6.last ≤ 100 → t.rc6Latch = s.rc6Latch ∧
      t.rc6 =
        if 5 < deltaT ts s.rc6.last then { s.rc6 with last := ts, phase := .init }
        else if lv = true then { s.rc6 with last := ts, phase := .readFieldWait, mid := false }
        else { s.rc6 with last := ts })

/-- R169, R170, R171: ReadFieldWait, and (R172) the level does not matter. -/
def Obligations.Rc6ReadFieldWaitRow : Prop :=
  ∀ (ts : Timestamp) (lv : Bool) (s : State), s.rc6.Inv → s.rc6.phase = .readFieldWait →
    deltaT ts s.rc6.last ≤ 100 →
    ∃ t, exec (.edge ts lv) s = .next t ∧ t.rc6Latch = s.rc6Latch ∧
      t.rc6 =
        if 10 < deltaT ts s.rc6.last then { s.rc6 with last := ts, phase := .init, field := 0 }
        else if 5 < deltaT ts s.rc6.last ∨ s.rc6.mid = true then
          (if s.rc6.field = 2 then { s.rc6 with last := ts, phase := .readToggle1, field := 0, mid := false }
           else { s.rc6 with last := ts, field := s.rc6.field + 1, mid := false })
        else { s.rc6 with last := ts, mid := true }

/-- R173, R174, R175: ReadToggle1, whatever the level. -/
def Obligations.Rc6ReadToggle1Row : Prop :=
  ∀ (ts : Timestamp) (lv : Bool) (s : State), s.rc6.phase = .readToggle1 → deltaT ts s.rc6.last ≤ 100 →
    ∃ t, exec (.edge ts lv) s = .next t ∧ t.rc6Latch = s.rc6Latch ∧
      t.rc6 =
        if 30 < deltaT ts s.rc6.last then { s.rc6 with last := ts, phase := .init }
        else if deltaT ts s.rc6.last ≤ 5 ∧ s.rc6.mid = false then { s.rc6 with last := ts, mid := true }
        else { s.rc6 with last := ts, phase := .readToggle2 }

/-- R176, R177, R178: ReadToggle2. Below 10 ticks the event only ends the toggle bit; at exactly 10 it also stores the first data bit;
above, the decoder goes to Init with the index and the accumulator cleared. The two named outcomes are `toggleEnd`'s. -/
def Obligations.Rc6ReadToggle2Row : Prop :=
  ∀ (ts : Timestamp) (lv : Bool) (s : State), s.rc6.phase = .readToggle2 → deltaT ts s.rc6.last ≤ 100 →
    (toggleEnd (deltaT ts s.rc6.last) = .consumedToggleOnly ↔ deltaT ts s.rc6.last < 10) ∧
    ∃ t, exec (.edge ts lv) s = .next t ∧ t.rc6Latch = s.rc6Latch ∧
      t.rc6 =
        if deltaT ts s.rc6.last < 10 then { s.rc6 with last := ts, phase := .readGet, bitIndex := 0, acc := 0 }
        else if deltaT ts s.rc6.last = 10 then
          { s.rc6 with last := ts, phase := .readGet, bitIndex := 1, acc := (if lv then 0x8000 else 0), mid := false }
        else { s.rc6 with last := ts, phase := .init, bitIndex := 0, acc := 0 }

/-- R180, R181: ReadGet, the timeout and the half-bit. -/
def Obligations.Rc6ReadGetTimeoutAndHalfBit : Prop :=
  ∀ (ts : Timestamp) (lv : Bool) (s : State), s.rc6.phase = .readGet → deltaT ts s.rc6.last ≤ 100 →
    (10 < deltaT ts s.rc6.last ∨
      (deltaT ts s.rc6.last ≤ 5 ∧ s.rc6.mid = false ∧ s.rc6.bitIndex ≠ 0)) →
    ∃ t, exec (.edge ts lv) s = .next t ∧ t.rc6Latch = s.rc6Latch ∧
      t.rc6 =
        if 10 < deltaT ts s.rc6.last then { s.rc6 with last := ts, phase := .init }
        else { s.rc6 with last := ts, mid := true }

/-- R182, R183: ReadGet, every other event in time stores the level at bit 15 - bit_index and no other bit and clears the flag; the
16th bit commits the accumulator, clears it and the index, and goes to Init, whatever the latch held (R68). -/
def Obligations.Rc6ReadGetStoresAndCommits : Prop :=
  ∀ (ts : Timestamp) (lv : Bool) (s : State), s.rc6.Inv → s.rc6.phase = .readGet →
    deltaT ts s.rc6.last ≤ 10 →
    ¬ (deltaT ts s.rc6.last ≤ 5 ∧ s.rc6.mid = false ∧ s.rc6.bitIndex ≠ 0) →
    ∃ (t : State) (acc : BitVec 16), exec (.edge ts lv) s = .next t ∧
      (∀ j, j < 16 → acc.getLsbD j = (if j = 15 - s.rc6.bitIndex.toNat then lv else s.rc6.acc.getLsbD j)) ∧
      t.rc6Latch = (if s.rc6.bitIndex = 15 then acc else s.rc6Latch) ∧
      t.rc6 =
        if s.rc6.bitIndex = 15 then
          { s.rc6 with last := ts, phase := .init, acc := 0, bitIndex := 0, mid := false }
        else { s.rc6 with last := ts, acc := acc, bitIndex := s.rc6.bitIndex + 1, mid := false }

/-- A run too short for what is left of an RC6 frame never reaches the RC6 latch: from Init a commit takes three leader edges to Start3, one
to ReadFieldWait, an event for each field bit still to count (3 less the stale count, R186), two toggle events and sixteen data events, less
the one event R178 lets end the toggle and store a bit at once. -/
def Obligations.TruncatedRc6RunsNeverReachTheLatch : Prop :=
  ∀ (s : State) (evs : List EdgeEvent), s.rc6.Inv → s.rc6.phase = .init →
    evs.length + s.rc6.field.toNat < 24 → (s.applyEvents evs).rc6Latch = s.rc6Latch

/-- R185 at h = 4, the committing case: an RC6 frame of any mode whose toggle bit equals data bit 15, applied from Init with no stale
field count, commits its data, and the decoder is back in Init. -/
def Obligations.Rc6FrameWithMatchingToggleCommits : Prop :=
  ∀ (t0 : Nat) (mode : BitVec 3) (data : BitVec 16) (s : State), s.rc6.phase = .init → s.rc6.field = 0 →
    (s.applyEvents (rc6Frame t0 mode (data.getLsbD 15) data 4)).rc6Latch = data ∧
    (s.applyEvents (rc6Frame t0 mode (data.getLsbD 15) data 4)).rc6.phase = .init

/-- R185 at h = 4, the other case (90_conflicts.md C2): a frame whose toggle bit differs from data bit 15 commits nothing. -/
def Obligations.Rc6FrameWithOtherToggleIsDropped : Prop :=
  ∀ (t0 : Nat) (mode : BitVec 3) (data : BitVec 16) (s : State), s.rc6.phase = .init → s.rc6.field = 0 →
    (s.applyEvents (rc6Frame t0 mode (!data.getLsbD 15) data 4)).rc6Latch = s.rc6Latch

/-! ## Latch reads and the key mapper (43_key_mapper.md, 20_memory.md) -/

/-- R220: READ_NEC returns the latch and clears it; nothing else changes. -/
def Obligations.ReadNecReturnsAndClears : Prop :=
  ∀ s : State, exec .readNec s = .next { s with necLatch := 0, result := some s.necLatch }

/-- R221: READ_RC6 returns the latch zero-extended and clears it; nothing else changes. -/
def Obligations.ReadRc6ReturnsAndClears : Prop :=
  ∀ s : State, ∃ w : Word, w.toNat = s.rc6Latch.toNat ∧
    exec .readRc6 s = .next { s with rc6Latch := 0, result := some w }

/-- R222, R223: DECODE clears both latches on every path and changes nothing else but the result: the key of the first entry of the NEC list
equal to the NEC code; if there is none, of the first entry of the RC6 list equal to the RC6 code; if there is none, None. -/
def Obligations.DecodeReturnsTheFirstMatch : Prop :=
  ∀ s : State, ∃ k : KeyId,
    exec .decode s = .next { s with necLatch := 0, rc6Latch := 0, result := some (keyResultWord k) } ∧
    (∀ (i : Nat) (k' : KeyId), s.codeTable.nec[i]? = some (s.necLatch, k') →
      (∀ (m : Nat) (l : KeyId), m < i → s.codeTable.nec[m]? ≠ some (s.necLatch, l)) → k = k') ∧
    ((∀ l, (s.necLatch, l) ∉ s.codeTable.nec) →
      ∀ (i : Nat) (k' : KeyId), s.codeTable.rc6[i]? = some (s.rc6Latch, k') →
        (∀ (m : Nat) (l : KeyId), m < i → s.codeTable.rc6[m]? ≠ some (s.rc6Latch, l)) → k = k') ∧
    ((∀ k', (s.necLatch, k') ∉ s.codeTable.nec) → (∀ k', (s.rc6Latch, k') ∉ s.codeTable.rc6) → k = .none)

/-- R224: when the NEC code matches, DECODE returns its key, the RC6 code does not matter, and it is lost. -/
def Obligations.DecodeGivesNecPriority : Prop :=
  ∀ (s : State) (r : Half), (∃ k, (s.necLatch, k) ∈ s.codeTable.nec) →
    exec .decode s = exec .decode { s with rc6Latch := r } ∧
    ∃ t k, exec .decode s = .next t ∧ (s.necLatch, k) ∈ s.codeTable.nec ∧ t.result = some (keyResultWord k) ∧
      t.rc6Latch = 0 ∧ t.necLatch = 0

/-- R225: under a well-formed table an empty latch matches nothing, and DECODE returns None exactly when neither latch holds a listed literal;
a latch left at 0 reads as 0 and decodes to None. -/
def Obligations.DecodeReturnsNoneIffNothingListed : Prop :=
  ∀ s : State, s.codeTable.wellFormed = true →
    (∃ t, exec .decode s = .next t ∧
      (t.result = some 0 ↔
        (∀ k, (s.necLatch, k) ∉ s.codeTable.nec) ∧ (∀ k, (s.rc6Latch, k) ∉ s.codeTable.rc6))) ∧
    (∀ k, (0, k) ∉ s.codeTable.nec) ∧ (∀ k, (0, k) ∉ s.codeTable.rc6)

/-- R67: a second read with no commit between finds nothing: READ_NEC and READ_RC6 return 0, DECODE returns None. -/
def Obligations.SecondReadFindsNothing : Prop :=
  ∀ s : State, s.codeTable.wellFormed = true →
    (∃ t u, exec .readNec s = .next t ∧ exec .readNec t = .next u ∧ u.result = some 0) ∧
    (∃ t u, exec .readRc6 s = .next t ∧ exec .readRc6 t = .next u ∧ u.result = some 0) ∧
    (∃ t u, exec .decode s = .next t ∧ exec .decode t = .next u ∧ u.result = some 0)

/-- R226: after a valid frame for 0xE0E016E9, under a well-formed table in which the first NEC entry of that literal is Enter, DECODE returns
Enter exactly once and then None. -/
def Obligations.EnterIsDecodedExactlyOnce : Prop :=
  ∀ (s : State) (ts : Nat → Timestamp) (i : Nat), s.codeTable.wellFormed = true →
    s.codeTable.nec[i]? = some (0xE0E016E9#32, .enter) →
    (∀ j, j < i → ∀ k, s.codeTable.nec[j]? ≠ some (0xE0E016E9#32, k)) →
    s.nec.phase = .init ∨ 300 < deltaT (ts 0) s.nec.last → NecWindows ts 0xE0E016E9#32 →
    ∃ t u, exec .decode (s.applyEvents (necShapedEvents ts)) = .next t ∧ t.result = some 1 ∧
      exec .decode t = .next u ∧ u.result = some 0

/-- R220, R221, R38: a consumer operation never disturbs a frame in progress: whatever events follow, both decoders go through the same states as
without it. -/
def Obligations.ConsumerNeverDisturbsAFrame : Prop :=
  ∀ (s : State) (i : Instr) (evs : List EdgeEvent), i = .readNec ∨ i = .readRc6 ∨ i = .decode →
    ∃ t, exec i s = .next t ∧ (t.applyEvents evs).nec = (s.applyEvents evs).nec ∧
      (t.applyEvents evs).rc6 = (s.applyEvents evs).rc6

/-! ## The word view (20_memory.md R61 to R63) -/

/-- R61, R63: in the window at the base, a 32-bit read at offset 0, 4, 8 performs READ_NEC, READ_RC6, DECODE, a 32-bit write there has no effect,
and any access in the window at another offset or of another width is refused. -/
def Obligations.WordViewPerformsOperations : Prop :=
  ∀ (s : State) (base : Nat), s.busBase = some base →
    applyInput (.busRead base 32) s = exec .readNec s ∧
    applyInput (.busRead (base + 4) 32) s = exec .readRc6 s ∧
    applyInput (.busRead (base + 8) 32) s = exec .decode s ∧
    (∀ v, applyInput (.busWrite base 32 v) s = .next s ∧ applyInput (.busWrite (base + 4) 32 v) s = .next s ∧
      applyInput (.busWrite (base + 8) 32 v) s = .next s) ∧
    (∀ addr width v, base ≤ addr → addr < base + 12 →
      (width ≠ 32 ∨ (addr ≠ base ∧ addr ≠ base + 4 ∧ addr ≠ base + 8)) →
      (∃ r, applyInput (.busRead addr width) s = .refused r) ∧
      (∃ r, applyInput (.busWrite addr width v) s = .refused r))

/-- R62: a result word is laid out little-endian, byte offset k holding bits [8k+7:8k]. -/
def Obligations.ResultWordIsLittleEndian : Prop :=
  ∀ w : Word, (wordBytes w).length = 4 ∧
    ∀ k b, (wordBytes w)[k]? = some b → ∀ j, j < 8 → b.getLsbD j = w.getLsbD (8 * k + j)

/-! ## The whole machine -/

/-- Every operation completes in every state (R71, R109, R260), and leaves the instance's parameters and what is still scheduled alone. -/
def Obligations.EveryOperationCompletes : Prop :=
  ∀ (i : Instr) (s : State), ∃ t, exec i s = .next t ∧ t.codeTable = s.codeTable ∧ t.busBase = s.busBase ∧
    t.schedule = s.schedule

/-- The invariant holds right after reset (R37, R30, R41). The table it speaks of is the model's choice (log 4). -/
def Obligations.InvariantHoldsAtReset : Prop := State.reset.Inv

/-- Every step keeps the invariant: the ranges of R37, the agreement of the last timestamps (R30), the code table's well-formedness; and no step
changes the table (R35). -/
def Obligations.EveryStepKeepsTheInvariant : Prop :=
  ∀ s t : State, s.Inv → step s = .next t → t.Inv ∧ t.codeTable = s.codeTable

/-- R37, last item: a step that changes the NEC latch is the commit of a completed frame, a read-and-clear, or reset; likewise for RC6. -/
def Obligations.LatchesAreWrittenOnlyByCommitsReadsAndReset : Prop :=
  ∀ (s t : State) (x : Input) (rest : List Input), s.Inv → s.schedule = x :: rest → step s = .next t →
    (t.necLatch ≠ s.necLatch →
      (t.necLatch = s.nec.acc ∧ s.nec.phase = .stop ∧ t.nec.phase = .init ∧
        ∃ ts, x = .op (encode (.edge ts true)) ∧ deltaT ts s.nec.last ≤ 10) ∨
      (t.necLatch = 0 ∧ (x = .reset ∨ x = .op (encode .readNec) ∨ x = .op (encode .decode) ∨
        ∃ addr width, x = .busRead addr width))) ∧
    (t.rc6Latch ≠ s.rc6Latch →
      (s.rc6.bitIndex = 15 ∧ s.rc6.phase = .readGet ∧ t.rc6.phase = .init ∧
        ∃ ts lv, x = .op (encode (.edge ts lv)) ∧ deltaT ts s.rc6.last ≤ 10) ∨
      (t.rc6Latch = 0 ∧ (x = .reset ∨ x = .op (encode .readRc6) ∨ x = .op (encode .decode) ∨
        ∃ addr width, x = .busRead addr width)))

/-- A machine whose instance exists and whose scheduled inputs all have a meaning never stops: every number of steps ends in a next state
(R71, R109, R260). -/
def Obligations.LegalSchedulesNeverStop : Prop :=
  ∀ (s : State) (n : Nat), s.codeTable.wellFormed = true → s.LegalSchedule →
    ∃ t : State, Host.Core.run Sys2Proof.core n s = .next t

/-- Scheduling a run of edge events and taking that many steps is the run of events on the state (R69, R109). -/
def Obligations.StepsApplyScheduledEvents : Prop :=
  ∀ (evs : List EdgeEvent) (s : State) (rest : List Input), s.codeTable.wellFormed = true →
    s.schedule = evs.map edgeInput ++ rest →
    Host.Core.run Sys2Proof.core evs.length s = .next { s.applyEvents evs with schedule := rest }

/-- R292: only the phases, the latches and the field count of the reset state can be observed: two states in Init that differ at most in the other
decoder fields show the same latches, the same results and the same refusals after any number of steps of any schedule. -/
def Obligations.OtherResetFieldsCannotBeObserved : Prop :=
  ∀ (s t : State) (n : Nat), SameButUnobservable s t →
    seen (Host.Core.run Sys2Proof.core n s) = seen (Host.Core.run Sys2Proof.core n t)
end

