-- ==== Sys2Proof/Laws/State.lean ====
section
/-! SUPPORT. One lemma per field per update of the state, each true by definition. -/

namespace Sys2Proof.Machine

@[simp] theorem State.withResult_nec (s : State) (r : Option Word) : (s.withResult r).nec = s.nec := rfl
@[simp] theorem State.withResult_rc6 (s : State) (r : Option Word) : (s.withResult r).rc6 = s.rc6 := rfl
@[simp] theorem State.withResult_necLatch (s : State) (r : Option Word) : (s.withResult r).necLatch = s.necLatch := rfl
@[simp] theorem State.withResult_rc6Latch (s : State) (r : Option Word) : (s.withResult r).rc6Latch = s.rc6Latch := rfl
@[simp] theorem State.withResult_result (s : State) (r : Option Word) : (s.withResult r).result = r := rfl
@[simp] theorem State.withResult_codeTable (s : State) (r : Option Word) : (s.withResult r).codeTable = s.codeTable := rfl
@[simp] theorem State.withResult_busBase (s : State) (r : Option Word) : (s.withResult r).busBase = s.busBase := rfl
@[simp] theorem State.withResult_schedule (s : State) (r : Option Word) : (s.withResult r).schedule = s.schedule := rfl

@[simp] theorem State.clearNec_nec (s : State) : (s.clearNec).nec = s.nec := rfl
@[simp] theorem State.clearNec_rc6 (s : State) : (s.clearNec).rc6 = s.rc6 := rfl
@[simp] theorem State.clearNec_necLatch (s : State) : (s.clearNec).necLatch = 0 := rfl
@[simp] theorem State.clearNec_rc6Latch (s : State) : (s.clearNec).rc6Latch = s.rc6Latch := rfl
@[simp] theorem State.clearNec_result (s : State) : (s.clearNec).result = s.result := rfl
@[simp] theorem State.clearNec_codeTable (s : State) : (s.clearNec).codeTable = s.codeTable := rfl
@[simp] theorem State.clearNec_busBase (s : State) : (s.clearNec).busBase = s.busBase := rfl
@[simp] theorem State.clearNec_schedule (s : State) : (s.clearNec).schedule = s.schedule := rfl

@[simp] theorem State.clearRc6_nec (s : State) : (s.clearRc6).nec = s.nec := rfl
@[simp] theorem State.clearRc6_rc6 (s : State) : (s.clearRc6).rc6 = s.rc6 := rfl
@[simp] theorem State.clearRc6_necLatch (s : State) : (s.clearRc6).necLatch = s.necLatch := rfl
@[simp] theorem State.clearRc6_rc6Latch (s : State) : (s.clearRc6).rc6Latch = 0 := rfl
@[simp] theorem State.clearRc6_result (s : State) : (s.clearRc6).result = s.result := rfl
@[simp] theorem State.clearRc6_codeTable (s : State) : (s.clearRc6).codeTable = s.codeTable := rfl
@[simp] theorem State.clearRc6_busBase (s : State) : (s.clearRc6).busBase = s.busBase := rfl
@[simp] theorem State.clearRc6_schedule (s : State) : (s.clearRc6).schedule = s.schedule := rfl

@[simp] theorem State.withSchedule_nec (s : State) (rest : List Input) : (s.withSchedule rest).nec = s.nec := rfl
@[simp] theorem State.withSchedule_rc6 (s : State) (rest : List Input) : (s.withSchedule rest).rc6 = s.rc6 := rfl
@[simp] theorem State.withSchedule_necLatch (s : State) (rest : List Input) : (s.withSchedule rest).necLatch = s.necLatch := rfl
@[simp] theorem State.withSchedule_rc6Latch (s : State) (rest : List Input) : (s.withSchedule rest).rc6Latch = s.rc6Latch := rfl
@[simp] theorem State.withSchedule_result (s : State) (rest : List Input) : (s.withSchedule rest).result = s.result := rfl
@[simp] theorem State.withSchedule_codeTable (s : State) (rest : List Input) : (s.withSchedule rest).codeTable = s.codeTable := rfl
@[simp] theorem State.withSchedule_busBase (s : State) (rest : List Input) : (s.withSchedule rest).busBase = s.busBase := rfl
@[simp] theorem State.withSchedule_schedule (s : State) (rest : List Input) : (s.withSchedule rest).schedule = rest := rfl

@[simp] theorem State.edgeNec_nec (s : State) (ts : Timestamp) (lv : Bool) : (s.edgeNec ts lv).nec = (necStep ts lv s.nec s.necLatch).1 := rfl
@[simp] theorem State.edgeNec_rc6 (s : State) (ts : Timestamp) (lv : Bool) : (s.edgeNec ts lv).rc6 = s.rc6 := rfl
@[simp] theorem State.edgeNec_necLatch (s : State) (ts : Timestamp) (lv : Bool) : (s.edgeNec ts lv).necLatch = (necStep ts lv s.nec s.necLatch).2 := rfl
@[simp] theorem State.edgeNec_rc6Latch (s : State) (ts : Timestamp) (lv : Bool) : (s.edgeNec ts lv).rc6Latch = s.rc6Latch := rfl
@[simp] theorem State.edgeNec_result (s : State) (ts : Timestamp) (lv : Bool) : (s.edgeNec ts lv).result = s.result := rfl
@[simp] theorem State.edgeNec_codeTable (s : State) (ts : Timestamp) (lv : Bool) : (s.edgeNec ts lv).codeTable = s.codeTable := rfl
@[simp] theorem State.edgeNec_busBase (s : State) (ts : Timestamp) (lv : Bool) : (s.edgeNec ts lv).busBase = s.busBase := rfl
@[simp] theorem State.edgeNec_schedule (s : State) (ts : Timestamp) (lv : Bool) : (s.edgeNec ts lv).schedule = s.schedule := rfl

@[simp] theorem State.edgeRc6_nec (s : State) (ts : Timestamp) (lv : Bool) : (s.edgeRc6 ts lv).nec = s.nec := rfl
@[simp] theorem State.edgeRc6_rc6 (s : State) (ts : Timestamp) (lv : Bool) : (s.edgeRc6 ts lv).rc6 = (rc6Step ts lv s.rc6 s.rc6Latch).1 := rfl
@[simp] theorem State.edgeRc6_necLatch (s : State) (ts : Timestamp) (lv : Bool) : (s.edgeRc6 ts lv).necLatch = s.necLatch := rfl
@[simp] theorem State.edgeRc6_rc6Latch (s : State) (ts : Timestamp) (lv : Bool) : (s.edgeRc6 ts lv).rc6Latch = (rc6Step ts lv s.rc6 s.rc6Latch).2 := rfl
@[simp] theorem State.edgeRc6_result (s : State) (ts : Timestamp) (lv : Bool) : (s.edgeRc6 ts lv).result = s.result := rfl
@[simp] theorem State.edgeRc6_codeTable (s : State) (ts : Timestamp) (lv : Bool) : (s.edgeRc6 ts lv).codeTable = s.codeTable := rfl
@[simp] theorem State.edgeRc6_busBase (s : State) (ts : Timestamp) (lv : Bool) : (s.edgeRc6 ts lv).busBase = s.busBase := rfl
@[simp] theorem State.edgeRc6_schedule (s : State) (ts : Timestamp) (lv : Bool) : (s.edgeRc6 ts lv).schedule = s.schedule := rfl

@[simp] theorem State.applyEdge_nec (s : State) (ts : Timestamp) (lv : Bool) : (s.applyEdge ts lv).nec = (necStep ts lv s.nec s.necLatch).1 := rfl
@[simp] theorem State.applyEdge_rc6 (s : State) (ts : Timestamp) (lv : Bool) : (s.applyEdge ts lv).rc6 = (rc6Step ts lv s.rc6 s.rc6Latch).1 := rfl
@[simp] theorem State.applyEdge_necLatch (s : State) (ts : Timestamp) (lv : Bool) : (s.applyEdge ts lv).necLatch = (necStep ts lv s.nec s.necLatch).2 := rfl
@[simp] theorem State.applyEdge_rc6Latch (s : State) (ts : Timestamp) (lv : Bool) : (s.applyEdge ts lv).rc6Latch = (rc6Step ts lv s.rc6 s.rc6Latch).2 := rfl
@[simp] theorem State.applyEdge_result (s : State) (ts : Timestamp) (lv : Bool) : (s.applyEdge ts lv).result = none := rfl
@[simp] theorem State.applyEdge_codeTable (s : State) (ts : Timestamp) (lv : Bool) : (s.applyEdge ts lv).codeTable = s.codeTable := rfl
@[simp] theorem State.applyEdge_busBase (s : State) (ts : Timestamp) (lv : Bool) : (s.applyEdge ts lv).busBase = s.busBase := rfl
@[simp] theorem State.applyEdge_schedule (s : State) (ts : Timestamp) (lv : Bool) : (s.applyEdge ts lv).schedule = s.schedule := rfl

@[simp] theorem State.applyReset_nec (s : State) : (s.applyReset).nec = NecState.reset := rfl
@[simp] theorem State.applyReset_rc6 (s : State) : (s.applyReset).rc6 = Rc6State.reset := rfl
@[simp] theorem State.applyReset_necLatch (s : State) : (s.applyReset).necLatch = 0 := rfl
@[simp] theorem State.applyReset_rc6Latch (s : State) : (s.applyReset).rc6Latch = 0 := rfl
@[simp] theorem State.applyReset_result (s : State) : (s.applyReset).result = none := rfl
@[simp] theorem State.applyReset_codeTable (s : State) : (s.applyReset).codeTable = s.codeTable := rfl
@[simp] theorem State.applyReset_busBase (s : State) : (s.applyReset).busBase = s.busBase := rfl
@[simp] theorem State.applyReset_schedule (s : State) : (s.applyReset).schedule = s.schedule := rfl

@[simp] theorem State.resetWith_nec (t : CodeTable) (b : Option Nat) : (State.resetWith t b).nec = NecState.reset := rfl
@[simp] theorem State.resetWith_rc6 (t : CodeTable) (b : Option Nat) : (State.resetWith t b).rc6 = Rc6State.reset := rfl
@[simp] theorem State.resetWith_necLatch (t : CodeTable) (b : Option Nat) : (State.resetWith t b).necLatch = 0 := rfl
@[simp] theorem State.resetWith_rc6Latch (t : CodeTable) (b : Option Nat) : (State.resetWith t b).rc6Latch = 0 := rfl
@[simp] theorem State.resetWith_result (t : CodeTable) (b : Option Nat) : (State.resetWith t b).result = none := rfl
@[simp] theorem State.resetWith_codeTable (t : CodeTable) (b : Option Nat) : (State.resetWith t b).codeTable = t := rfl
@[simp] theorem State.resetWith_busBase (t : CodeTable) (b : Option Nat) : (State.resetWith t b).busBase = b := rfl
@[simp] theorem State.resetWith_schedule (t : CodeTable) (b : Option Nat) : (State.resetWith t b).schedule = [] := rfl

/-- Writing the schedule twice keeps the second. -/
@[simp] theorem State.withSchedule_withSchedule (s : State) (a b : List Input) :
    (s.withSchedule a).withSchedule b = s.withSchedule b := rfl

/-- Writing back the schedule that is there changes nothing. -/
@[simp] theorem State.withSchedule_self (s : State) : s.withSchedule s.schedule = s := rfl

/-- An edge event does not look at the schedule. -/
theorem State.applyEdge_withSchedule (s : State) (ts : Timestamp) (lv : Bool) (rest : List Input) :
    (s.withSchedule rest).applyEdge ts lv = (s.applyEdge ts lv).withSchedule rest := rfl

end Sys2Proof.Machine
end

