-- ==== Sys2Proof/Laws/Decode.lean ====
section
/-! SUPPORT. The decoder and the encoder: the fields of an encoded word, and everything a decoded word can be. -/

namespace Sys2Proof

/-- Every bit of an EDGE word (R80, R82). -/
theorem getLsbD_encode_edge (ts : BitVec 16) (lv : Bool) (j : Nat) :
    (encode (.edge ts lv)).getLsbD j =
      if j < 16 then ts.getLsbD j else if j = 16 then lv else decide (j = 29) := by
  simp only [encode, BitVec.getLsbD_or, BitVec.getLsbD_shiftLeft, BitVec.getLsbD_setWidth]
  rcases Nat.lt_or_ge j 32 with hj | hj
  · interval_cases j <;> simp
  · simp [BitVec.getLsbD_of_ge, hj, show ¬ j < 16 by omega, show ¬ j = 16 by omega, show ¬ j = 29 by omega]

/-- The operand T of an EDGE word (R83). -/
@[simp] theorem fieldT_encode_edge (ts : BitVec 16) (lv : Bool) : fieldT (encode (.edge ts lv)) = ts := by
  refine BitVec.eq_of_getLsbD_eq fun j hj => ?_
  simp [fieldT, getLsbD_encode_edge, hj]

/-- The operand L of an EDGE word (R83). -/
@[simp] theorem fieldL_encode_edge (ts : BitVec 16) (lv : Bool) : fieldL (encode (.edge ts lv)) = lv := by
  have := getLsbD_encode_edge ts lv 16
  simpa [fieldL] using this

/-- An EDGE word matches its row (R82). -/
theorem encode_edge_masked (ts : BitVec 16) (lv : Bool) :
    encode (.edge ts lv) &&& 0xFFFE0000#32 = 0x20000000#32 := by
  refine BitVec.eq_of_getLsbD_eq fun j hj => ?_
  rw [BitVec.getLsbD_and, getLsbD_encode_edge]
  interval_cases j <;> simp

/-- A word that matches EDGE's row is built of its operands (R82, R83). -/
theorem encode_fields_of_masked {w : Word} (h : w &&& 0xFFFE0000#32 = 0x20000000#32) :
    encode (.edge (fieldT w) (fieldL w)) = w := by
  refine BitVec.eq_of_getLsbD_eq fun j hj => ?_
  have hb := congrArg (fun v : Word => v.getLsbD j) h
  simp only [BitVec.getLsbD_and] at hb
  rw [getLsbD_encode_edge]
  interval_cases j <;> simp_all [fieldT, fieldL]

/-- Everything a legal word can be. -/
theorem decodeWord_op_cases {w : Word} {i : Instr} (h : decodeWord w = .op i) :
    (w &&& 0xFFFE0000#32 = 0x20000000#32 ∧ i = .edge (fieldT w) (fieldL w)) ∨
    (w = 0x40000000#32 ∧ i = .readNec) ∨ (w = 0x60000000#32 ∧ i = .readRc6) ∨
    (w = 0x80000000#32 ∧ i = .decode) := by
  unfold decodeWord at h
  split_ifs at h <;> simp_all

/-- An illegal word is reported under itself (R87). -/
theorem decodeWord_illegal {w v : Word} (h : decodeWord w = .illegal v) : v = w := by
  unfold decodeWord at h
  split_ifs at h
  simp_all

end Sys2Proof
end

