-- ==== Sys2Proof/Laws/KeyMapper.lean ====
section
/-! SUPPORT. The table lookup: what it finds, once (R223). -/

namespace Sys2Proof.Machine

/-- The lookup finds nothing exactly when the code is not listed. -/
theorem lookupCode_eq_none {w : Nat} {code : BitVec w} {l : List (BitVec w × KeyId)} :
    lookupCode code l = none ↔ ∀ k, (code, k) ∉ l := by
  induction l with
  | nil => simp [lookupCode]
  | cons e l ih =>
    obtain ⟨c, k'⟩ := e
    by_cases h : code = c
    · subst h; simp [lookupCode]; exact ⟨k', fun h => absurd rfl h⟩
    · simp [lookupCode, h, ih]

/-- What the lookup finds is listed. -/
theorem mem_of_lookupCode {w : Nat} {code : BitVec w} {l : List (BitVec w × KeyId)} {k : KeyId}
    (h : lookupCode code l = some k) : (code, k) ∈ l := by
  induction l with
  | nil => simp [lookupCode] at h
  | cons e l ih =>
    obtain ⟨c, k'⟩ := e
    by_cases hc : code = c
    · subst hc; simp [lookupCode] at h; simp [h]
    · simp [lookupCode, hc] at h; simp [ih h]

/-- The lookup finds the key of the first entry of the code (R223). -/
theorem lookupCode_of_first {w : Nat} {code : BitVec w} {l : List (BitVec w × KeyId)} {i : Nat} {k : KeyId}
    (h : l[i]? = some (code, k)) (hf : ∀ m j, m < i → l[m]? ≠ some (code, j)) : lookupCode code l = some k := by
  induction l generalizing i with
  | nil => simp at h
  | cons e l ih =>
    obtain ⟨c, k'⟩ := e
    cases i with
    | zero => simp at h; simp [lookupCode, h]
    | succ i =>
      have h0 := hf 0 k' (by omega)
      simp at h0
      simp [lookupCode, Ne.symm h0]
      exact ih (by simpa using h) fun m j hm => by simpa using hf (m + 1) j (by omega)

end Sys2Proof.Machine
end

