-- ==== Sys2Proof/Laws/Ops.lean ====
section
/-! SUPPORT. The bit store and Δt: what each gives, once. -/

namespace Sys2Proof.Machine

/-- Every bit of an accumulator after one bit is written. -/
@[simp] theorem getLsbD_setBit {w : Nat} (v : BitVec w) (k j : Nat) (b : Bool) :
    (setBit v k b).getLsbD j = if j = k ∧ j < w then b else v.getLsbD j := by
  unfold setBit
  by_cases hj : j < w
  · cases b <;> by_cases h : j = k <;> simp_all
  · cases b <;> simp [BitVec.getLsbD_of_ge, hj, Nat.le_of_not_lt hj]

/-- The same for an index on the integers. -/
theorem getLsbD_storeBit {w : Nat} (v : BitVec w) (i : Int) (j : Nat) (b : Bool) :
    (storeBit v i b).getLsbD j = if (j : Int) = i ∧ j < w then b else v.getLsbD j := by
  cases i with
  | ofNat k => simp [storeBit]
  | negSucc k =>
    have : ¬ ((j : Int) = Int.negSucc k) := by omega
    simp [storeBit, this]

/-- Decrementing an i8 that is not negative is exact (R11). -/
theorem toInt_dec {i : BitVec 8} (h : 0 ≤ i.toInt) : (i - 1).toInt = i.toInt - 1 := by
  have := BitVec.toInt_lt (x := i)
  rw [BitVec.toInt_sub]
  simp only [BitVec.reduceToInt, Int.bmod_def] at *
  omega

/-- Incrementing a u8 below 255 is exact (R11). -/
theorem toNat_inc {i : BitVec 8} (h : i.toNat < 255) : (i + 1).toNat = i.toNat + 1 := by
  rw [BitVec.toNat_add]
  simp only [BitVec.reduceToNat]
  omega

/-- A decrement leads below 0 from 0 alone (R130). -/
theorem dec_neg_iff {i : BitVec 8} (h : 0 ≤ i.toInt) : (i - 1).toInt < 0 ↔ i = 0 := by
  rw [toInt_dec h]
  constructor
  · exact fun h' => BitVec.eq_of_toInt_eq (show i.toInt = 0 by omega)
  · rintro rfl; decide

/-- The third field bit is counted from 2 (R170). -/
@[simp] theorem inc_eq_three (i : BitVec 8) : i + 1#8 = 3#8 ↔ i = 2#8 := by bv_omega

/-- The sixteenth data bit is stored from 15 (R183). -/
@[simp] theorem inc_eq_sixteen (i : BitVec 8) : i + 1#8 = 16#8 ↔ i = 15#8 := by bv_omega

/-- Δt as arithmetic on numbers (R102). -/
theorem deltaT_eq (ts last : Timestamp) : deltaT ts last = (ts.toNat + 65536 - last.toNat) % 65536 := by
  have := last.isLt
  simp only [deltaT, BitVec.toNat_sub]
  congr 1; omega

/-- Moving both timestamps by the same amount leaves Δt alone (R140). -/
theorem deltaT_shift (ts last c : Timestamp) : deltaT (ts + c) (last + c) = deltaT ts last := by
  rw [deltaT, deltaT, show ts + c - (last + c) = ts - last by ring]

@[simp] theorem deltaT_self (ts : Timestamp) : deltaT ts ts = 0 := by simp [deltaT]

/-- Δt after a gap of g ticks (R102, R298). -/
theorem deltaT_add (t g : Nat) :
    deltaT (BitVec.ofNat 16 (t + g)) (BitVec.ofNat 16 t) = g % 65536 := by
  rw [deltaT_eq]; simp only [BitVec.toNat_ofNat]; omega

theorem deltaT_lt (ts last : Timestamp) : deltaT ts last < 65536 := (ts - last).isLt

end Sys2Proof.Machine
end

