-- ==== Sys2Proof/Laws/Nec.lean ====
section
/-! SUPPORT. The NEC decoder: what one step can do, once (R120 to R135). -/

namespace Sys2Proof.Machine

/-- In Init the step is the Init row, whatever Δt is (R122). -/
theorem necStep_of_init {n : NecState} (h : n.phase = .init) (ts : Timestamp) (lv : Bool) (latch : Word) :
    necStep ts lv n latch = ({ n with last := ts, phase := if lv then .init else .start }, latch) := by
  cases lv <;> simp [necStep, necRow, necGuard, necInit, falls, h]

/-- Past the guard the step is the Init row (R121). -/
theorem necStep_of_guard {n : NecState} {ts : Timestamp} (h : NEC_GUARD < deltaT ts n.last) (lv : Bool) (latch : Word) :
    necStep ts lv n latch = ({ n with last := ts, phase := if lv then .init else .start }, latch) := by
  by_cases hp : n.phase = .init
  · exact necStep_of_init hp ts lv latch
  · cases lv <;> simp [necStep, necRow, necGuard, necInit, falls, h, hp]

/-- Within the guard the step is the row of the phase (R120). -/
theorem necStep_in_time {n : NecState} {ts : Timestamp} (h : deltaT ts n.last ≤ NEC_GUARD) (lv : Bool) (latch : Word) :
    necStep ts lv n latch = necRow (deltaT ts n.last) lv { n with last := ts } latch := by
  have : ¬ NEC_GUARD < deltaT ts n.last := by omega
  simp [necStep, necGuard, this]

/-- Every step overwrites `last` (R103). -/
theorem necStep_last (ts : Timestamp) (lv : Bool) (n : NecState) (latch : Word) :
    (necStep ts lv n latch).1.last = ts := by
  unfold necStep necRow
  split <;> simp only [necInit, necStart, necReadWait, necReadGet, necStop, necAdvance, necStore, necGuard] <;>
    split_ifs <;> rfl

/-- Everything a NEC step can do: the phase it leads to, with the accumulator, the index and the latch it leaves. -/
theorem necStep_cases (ts : Timestamp) (lv : Bool) (n : NecState) (latch : Word) :
    (∃ p, (p = .init ∨ p = n.phase ∨ (p = .start ∧ (n.phase = .init ∨ NEC_GUARD < deltaT ts n.last)) ∨
          (p = .readGet ∧ n.phase = .readWait)) ∧
        necStep ts lv n latch = ({ n with last := ts, phase := p }, latch)) ∨
    (n.phase = .start ∧ lv = false ∧ deltaT ts n.last ≤ NEC_START_TO ∧
        necStep ts lv n latch = ({ phase := .readWait, acc := 0, bitIndex := 31, last := ts }, latch)) ∨
    (n.phase = .readGet ∧ lv = false ∧ deltaT ts n.last ≤ NEC_SPACE_TO ∧
        necStep ts lv n latch = (necAdvance (necStore (necBit (deltaT ts n.last)) { n with last := ts }), latch)) ∨
    (n.phase = .stop ∧ lv = true ∧ deltaT ts n.last ≤ NEC_STOP_TO ∧
        necStep ts lv n latch = ({ n with last := ts, phase := .init }, n.acc)) := by
  by_cases hg : NEC_GUARD < deltaT ts n.last
  · refine .inl ⟨if lv then .init else .start, ?_, necStep_of_guard hg lv latch⟩
    cases lv <;> simp [hg]
  · rw [necStep_in_time (by omega)]
    obtain ⟨p, acc, i, last⟩ := n
    cases p <;> cases lv <;>
      simp only [necRow, necInit, necStart, necReadWait, necReadGet, necStop, falls, rises] <;>
      split_ifs <;> simp_all

/-- A NEC step keeps R37's range of the index. -/
theorem necStep_keeps_inv {n : NecState} (h : n.Inv) (ts : Timestamp) (lv : Bool) (latch : Word) :
    (necStep ts lv n latch).1.Inv := by
  obtain ⟨p, -, he⟩ | ⟨-, -, -, he⟩ | ⟨-, -, -, he⟩ | ⟨-, -, -, he⟩ := necStep_cases ts lv n latch <;>
    rw [he] <;> simp only [NecState.Inv] at h ⊢
  · exact h
  · decide
  · rw [necAdvance]; split_ifs with hi
    · simp
    · simp only [necStore, toInt_dec h.1] at hi ⊢; omega
  · exact h

/-- How many events a NEC decoder is away from a commit at least (R124, R127, R130, R134). -/
def necRank (n : NecState) : Int :=
  match n.phase with
  | .init => 67
  | .start => 66
  | .readWait => 2 * n.bitIndex.toInt + 3
  | .readGet => 2 * n.bitIndex.toInt + 2
  | .stop => 1

/-- The index matters only from ReadWait on (R22, R23): in range there, or the decoder is before it. -/
def NecIndexed (n : NecState) : Prop := n.phase = .init ∨ n.phase = .start ∨ n.Inv

/-- A NEC step keeps the index in range from ReadWait on. -/
theorem necStep_keeps_indexed {n : NecState} (h : NecIndexed n) (ts : Timestamp) (lv : Bool) (latch : Word) :
    NecIndexed (necStep ts lv n latch).1 := by
  obtain h | h | h := h
  · rw [necStep_of_init h]; cases lv <;> simp [NecIndexed]
  · obtain ⟨p, hp, he⟩ | ⟨hp, -, -, he⟩ | ⟨hp, -, -, he⟩ | ⟨hp, -, -, he⟩ := necStep_cases ts lv n latch <;>
      rw [he] <;> simp_all [NecIndexed]
    · tauto
    · simp [NecState.Inv]
  · exact .inr (.inr (necStep_keeps_inv h ts lv latch))

/-- One step brings a commit nearer by at most one event, and the latch changes only when one event was missing. -/
theorem necStep_rank {n : NecState} (h : NecIndexed n) (ts : Timestamp) (lv : Bool) (latch : Word) :
    necRank n - 1 ≤ necRank (necStep ts lv n latch).1 ∧
      ((necStep ts lv n latch).2 = latch ∨ necRank n = 1) := by
  obtain ⟨p, hp, he⟩ | ⟨hp, -, -, he⟩ | ⟨hp, -, -, he⟩ | ⟨hp, -, -, he⟩ := necStep_cases ts lv n latch <;>
    rw [he] <;> simp only [NecIndexed, NecState.Inv] at h
  · obtain ⟨q, acc, i, last⟩ := n
    simp only at hp h ⊢
    obtain rfl | rfl | ⟨rfl, -⟩ | ⟨rfl, rfl⟩ := hp
    · cases q <;> simp [necRank] at h ⊢ <;> omega
    · cases p <;> simp [necRank]
    · cases q <;> simp [necRank] at h ⊢ <;> omega
    · simp [necRank]; omega
  · simp [necRank, hp]
  · simp [hp] at h
    have hd := toInt_dec h.1
    rw [necAdvance]; split_ifs with hi <;> simp only [necRank, necStore, hp, hd] at hi ⊢ <;> simp <;> omega
  · simp [necRank, hp]

end Sys2Proof.Machine
end

