-- ==== Sys2Proof/Laws/PerInstr.lean ====
section
/-! SUPPORT. Laws of every operation as a term, one lemma a constructor. -/

namespace Sys2Proof.Laws.RoundTrip

/-- Decoding the operation's word gives the operation back (R82, R87, R88). -/
def Statement (i : Instr) : Prop := i.wellFormed = true → decodeWord (encode i) = .op i

theorem edge (ts : BitVec 16) (lv : Bool) : Statement (.edge ts lv) := fun _ => by
  simp [decodeWord, encode_edge_masked]

theorem readNec : Statement .readNec := fun _ => by decide

theorem readRc6 : Statement .readRc6 := fun _ => by decide

theorem decode : Statement .decode := fun _ => by decide

end Sys2Proof.Laws.RoundTrip
end

