-- ==== Sys2Proof/Laws/Rc6.lean ====
section
/-! SUPPORT. The RC6 decoder: what one step can do, once (R160 to R183). -/

namespace Sys2Proof.Machine

/-- In Init the step is the Init row, whatever Δt is (R162). -/
theorem rc6Step_of_init {r : Rc6State} (h : r.phase = .init) (ts : Timestamp) (lv : Bool) (latch : Half) :
    rc6Step ts lv r latch = ({ r with last := ts, phase := if lv then .init else .start1 }, latch) := by
  cases lv <;> simp [rc6Step, rc6Row, rc6Guard, rc6Init, falls, h]

/-- Past the guard the step is the Init row (R161). -/
theorem rc6Step_of_guard {r : Rc6State} {ts : Timestamp} (h : RC6_GUARD < deltaT ts r.last) (lv : Bool) (latch : Half) :
    rc6Step ts lv r latch = ({ r with last := ts, phase := if lv then .init else .start1 }, latch) := by
  by_cases hp : r.phase = .init
  · exact rc6Step_of_init hp ts lv latch
  · cases lv <;> simp [rc6Step, rc6Row, rc6Guard, rc6Init, falls, h, hp]

/-- Within the guard the step is the row of the phase (R160). -/
theorem rc6Step_in_time {r : Rc6State} {ts : Timestamp} (h : deltaT ts r.last ≤ RC6_GUARD) (lv : Bool) (latch : Half) :
    rc6Step ts lv r latch = rc6Row (deltaT ts r.last) lv { r with last := ts } latch := by
  have : ¬ RC6_GUARD < deltaT ts r.last := by omega
  simp [rc6Step, rc6Guard, this]

/-- The first data bit of a frame never commits (R178, R182). -/
theorem rc6Commit_first (lv : Bool) (r : Rc6State) (latch : Half) :
    rc6Commit (rc6Store lv (rc6BeginData r)) latch = (rc6Store lv (rc6BeginData r), latch) := by
  simp [rc6Commit, rc6Store, rc6BeginData]

/-- ReadToggle2 by Δt (R176 to R178, R180, R182). -/
theorem rc6ReadToggle2_eq (dt : Nat) (lv : Bool) (r : Rc6State) (latch : Half) :
    rc6ReadToggle2 dt lv r latch =
      (if dt < 10 then rc6BeginData r
        else if dt = 10 then rc6Store lv (rc6BeginData r)
        else { rc6BeginData r with phase := .init }, latch) := by
  unfold rc6ReadToggle2 toggleEnd rc6Get
  rw [rc6Commit_first]
  rcases Nat.lt_trichotomy dt 10 with h | rfl | h
  · simp [RC6_T2_SPLIT, h]
  · simp [RC6_T2_SPLIT, RC6_GET_TO, isDataHalf, RC6_HALF]
  · simp [RC6_T2_SPLIT, RC6_GET_TO, h, show ¬ dt < 10 by omega, show ¬ dt = 10 by omega]

/-- Every step overwrites `last` (R103). -/
theorem rc6Step_last (ts : Timestamp) (lv : Bool) (r : Rc6State) (latch : Half) :
    (rc6Step ts lv r latch).1.last = ts := by
  unfold rc6Step rc6Row
  split <;>
    simp only [rc6Init, rc6Start1, rc6Start2, rc6Start3, rc6ReadFieldWait, rc6CountField, rc6ReadToggle1,
      rc6ReadToggle2_eq, rc6BeginData, rc6Get, rc6Commit, rc6Store, rc6Guard] <;>
    split_ifs <;> rfl

/-- Everything an RC6 step can do: the state it leads to and the latch it leaves. -/
theorem rc6Step_cases (ts : Timestamp) (lv : Bool) (r : Rc6State) (latch : Half) :
    (∃ p, (p = .init ∨ p = r.phase ∨ (p = .start1 ∧ (r.phase = .init ∨ RC6_GUARD < deltaT ts r.last)) ∨
          (p = .start2 ∧ r.phase = .start1) ∨ (p = .start3 ∧ r.phase = .start2) ∨
          (p = .readToggle2 ∧ r.phase = .readToggle1)) ∧
        rc6Step ts lv r latch = ({ r with last := ts, phase := p }, latch)) ∨
    (r.phase = .start3 ∧
        rc6Step ts lv r latch = ({ r with last := ts, mid := false, phase := .readFieldWait }, latch)) ∨
    (r.phase = .readFieldWait ∧ rc6Step ts lv r latch = ({ r with last := ts, field := 0, phase := .init }, latch)) ∨
    (r.phase = .readFieldWait ∧ rc6Step ts lv r latch = (rc6CountField { r with last := ts }, latch)) ∨
    ((r.phase = .readFieldWait ∨ r.phase = .readToggle1 ∨ r.phase = .readGet) ∧
        rc6Step ts lv r latch = ({ r with last := ts, mid := true }, latch)) ∨
    (r.phase = .readToggle2 ∧ rc6Step ts lv r latch = (rc6BeginData { r with last := ts }, latch)) ∨
    (r.phase = .readToggle2 ∧
        rc6Step ts lv r latch = ({ rc6BeginData { r with last := ts } with phase := .init }, latch)) ∨
    (r.phase = .readToggle2 ∧ rc6Step ts lv r latch = (rc6Store lv (rc6BeginData { r with last := ts }), latch)) ∨
    (r.phase = .readGet ∧ deltaT ts r.last ≤ RC6_GET_TO ∧
        rc6Step ts lv r latch = rc6Commit (rc6Store lv { r with last := ts }) latch) := by
  by_cases hg : RC6_GUARD < deltaT ts r.last
  · refine .inl ⟨if lv then .init else .start1, ?_, rc6Step_of_guard hg lv latch⟩
    cases lv <;> simp [hg]
  · rw [rc6Step_in_time (by omega)]
    obtain ⟨p, acc, i, f, m, last⟩ := r
    cases p <;>
      simp only [rc6Row, rc6Init, rc6Start1, rc6Start2, rc6Start3, rc6ReadFieldWait, rc6ReadToggle1,
        rc6ReadToggle2_eq, rc6Get, falls, rises] <;>
      split_ifs <;> simp_all

/-- An RC6 step keeps R37's ranges of the index and the field count. -/
theorem rc6Step_keeps_inv {r : Rc6State} (h : r.Inv) (ts : Timestamp) (lv : Bool) (latch : Half) :
    (rc6Step ts lv r latch).1.Inv := by
  obtain ⟨p, -, he⟩ | ⟨-, he⟩ | ⟨-, he⟩ | ⟨-, he⟩ | ⟨-, he⟩ | ⟨-, he⟩ | ⟨-, he⟩ | ⟨-, he⟩ | ⟨-, -, he⟩ :=
    rc6Step_cases ts lv r latch <;> rw [he] <;> simp only [Rc6State.Inv] at h ⊢
  · exact h
  · exact h
  · exact ⟨h.1, by decide⟩
  · rw [rc6CountField]; split_ifs with hi
    · exact ⟨h.1, show BitVec.toNat 0 ≤ 2 by decide⟩
    · bv_omega
  · exact h
  · simp [rc6BeginData, h.2]
  · simp [rc6BeginData, h.2]
  · simp [rc6Store, rc6BeginData, h.2]
  · rw [rc6Commit]; split_ifs with hi <;> simp only [rc6Store] at hi ⊢ <;> bv_omega

/-- How many events an RC6 decoder is away from a commit at least (R162 to R183). -/
def rc6Rank (r : Rc6State) : Nat :=
  match r.phase with
  | .init => 24 - r.field.toNat
  | .start1 => 23 - r.field.toNat
  | .start2 => 22 - r.field.toNat
  | .start3 => 21 - r.field.toNat
  | .readFieldWait => 20 - r.field.toNat
  | .readToggle1 => 17
  | .readToggle2 => 16
  | .readGet => 16 - r.bitIndex.toNat

/-- One step brings a commit nearer by at most one event, and the latch changes only when one event was missing. -/
theorem rc6Step_rank {r : Rc6State} (h : r.Inv) (ts : Timestamp) (lv : Bool) (latch : Half) :
    rc6Rank r ≤ rc6Rank (rc6Step ts lv r latch).1 + 1 ∧
      ((rc6Step ts lv r latch).2 = latch ∨ rc6Rank r = 1) := by
  obtain ⟨p, hp, he⟩ | ⟨hp, he⟩ | ⟨hp, he⟩ | ⟨hp, he⟩ | ⟨hp, he⟩ | ⟨hp, he⟩ | ⟨hp, he⟩ | ⟨hp, he⟩ | ⟨hp, -, he⟩ :=
    rc6Step_cases ts lv r latch <;> rw [he] <;> simp only [Rc6State.Inv] at h
  · obtain ⟨q, acc, i, f, m, last⟩ := r
    simp only at hp h ⊢
    obtain rfl | rfl | ⟨rfl, -⟩ | ⟨rfl, rfl⟩ | ⟨rfl, rfl⟩ | ⟨rfl, rfl⟩ := hp
    · cases q <;> simp [rc6Rank] <;> omega
    · cases p <;> simp [rc6Rank]
    · cases q <;> simp [rc6Rank] <;> omega
    · simp [rc6Rank]; omega
    · simp [rc6Rank]; omega
    · simp [rc6Rank]
  · simp [rc6Rank, hp]; omega
  · simp [rc6Rank, hp]; omega
  · have hi := toNat_inc (i := r.field) (by omega)
    rw [rc6CountField]; split_ifs with h3
    · have : (r.field + 1).toNat = 3 := congrArg BitVec.toNat h3
      simp only [rc6Rank, hp, true_or, and_true]; omega
    · simp only [rc6Rank, hp, hi, true_or, and_true]; omega
  · obtain hp | hp | hp := hp <;> simp [rc6Rank, hp]
  · simp [rc6Rank, rc6BeginData, hp]
  · simp [rc6Rank, rc6BeginData, hp]; omega
  · simp [rc6Rank, rc6Store, rc6BeginData, hp]
  · have hi := toNat_inc (i := r.bitIndex) (by omega)
    rw [rc6Commit]; split_ifs with h16
    · have : (r.bitIndex + 1).toNat = 16 := congrArg BitVec.toNat h16
      simp only [rc6Rank, hp]; omega
    · simp only [rc6Rank, rc6Store, hp, hi, true_or, and_true]; omega

end Sys2Proof.Machine
end

