-- ==== Sys2Proof/Laws/Step.lean ====
section
/-! SUPPORT. Meanings, steps and runs of events: what each gives, once. -/

namespace Sys2Proof.Machine

/-- What an operation does to a state, for the meanings as one function. -/
theorem exec_eq (i : Instr) (s : State) : exec i s = .next (match i with
    | .edge ts lv => s.applyEdge ts lv
    | .readNec => s.clearNec.withResult (some s.necLatch)
    | .readRc6 => s.clearRc6.withResult (some (rc6ResultWord s.rc6Latch))
    | .decode => s.clearNec.clearRc6.withResult
        (some (keyResultWord (mapCodes s.codeTable s.necLatch s.rc6Latch)))) := by
  cases i <;> rfl

/-- A step of an instance that exists, with nothing scheduled. -/
theorem step_idle {s : State} (hw : s.codeTable.wellFormed = true) (h : s.schedule = []) : step s = .next s := by
  simp [step, runNext, hw, h]

/-- A step of an instance that exists, with an input scheduled. -/
theorem step_input {s : State} {x : Input} {rest : List Input} (hw : s.codeTable.wellFormed = true)
    (h : s.schedule = x :: rest) : step s = applyInput x (s.withSchedule rest) := by
  simp [step, runNext, hw, h]

/-- Applying the word of an edge event. -/
theorem applyInput_edge (e : EdgeEvent) (s : State) : applyInput (edgeInput e) s = .next (s.applyEdge e.ts e.lv) := by
  have := Laws.RoundTrip.edge e.ts e.lv rfl
  simp [applyInput, edgeInput, applyWord, this, exec, execEdge]

/-- A bus access either is refused or performs one of the window's three operations. -/
theorem busRead_cases (addr width : Nat) (s : State) :
    (∃ r, busRead addr width s = .refused r) ∨ busRead addr width s = exec .readNec s ∨
      busRead addr width s = exec .readRc6 s ∨ busRead addr width s = exec .decode s := by
  unfold busRead
  split
  · exact .inl ⟨_, rfl⟩
  · unfold readWindow
    split
    · exact .inr (.inl rfl)
    · exact .inr (.inr (.inl rfl))
    · exact .inr (.inr (.inr rfl))
    · exact .inl ⟨_, rfl⟩

/-- A bus write either is refused or has no effect (R61). -/
theorem busWrite_cases (addr width : Nat) (s : State) :
    (∃ r, busWrite addr width s = .refused r) ∨ busWrite addr width s = .next s := by
  unfold busWrite
  split
  · exact .inl ⟨_, rfl⟩
  · unfold writeWindow
    split <;> first | exact .inr rfl | exact .inl ⟨_, rfl⟩

/-- Everything one step can do when it gives a next state. -/
theorem step_cases {s t : State} (h : step s = .next t) :
    s.codeTable.wellFormed = true ∧
      ((s.schedule = [] ∧ t = s) ∨
       ∃ x rest, s.schedule = x :: rest ∧
        ((∃ w i, x = .op w ∧ decodeWord w = .op i ∧ exec i (s.withSchedule rest) = .next t) ∨
         (x = .reset ∧ t = (s.withSchedule rest).applyReset) ∨
         (∃ addr width, x = .busRead addr width ∧
            (exec .readNec (s.withSchedule rest) = .next t ∨ exec .readRc6 (s.withSchedule rest) = .next t ∨
              exec .decode (s.withSchedule rest) = .next t)) ∨
         (∃ addr width v, x = .busWrite addr width v ∧ t = s.withSchedule rest))) := by
  by_cases hw : s.codeTable.wellFormed = true
  · refine ⟨hw, ?_⟩
    rcases hs : s.schedule with _ | ⟨x, rest⟩
    · rw [step_idle hw hs] at h
      exact .inl ⟨rfl, by cases h; rfl⟩
    · rw [step_input hw hs] at h
      refine .inr ⟨x, rest, rfl, ?_⟩
      cases x with
      | op w =>
        simp only [applyInput, applyWord] at h
        split at h
        · exact .inl ⟨w, _, rfl, by assumption, h⟩
        · cases h
      | reset => cases h; exact .inr (.inl ⟨rfl, rfl⟩)
      | busRead addr width =>
        simp only [applyInput] at h
        refine .inr (.inr (.inl ⟨addr, width, rfl, ?_⟩))
        obtain ⟨r, hr⟩ | hr | hr | hr := busRead_cases addr width (s.withSchedule rest) <;> rw [hr] at h
        · cases h
        · exact .inl h
        · exact .inr (.inl h)
        · exact .inr (.inr h)
      | busWrite addr width v =>
        simp only [applyInput] at h
        refine .inr (.inr (.inr ⟨addr, width, v, rfl, ?_⟩))
        obtain ⟨r, hr⟩ | hr := busWrite_cases addr width (s.withSchedule rest) <;> rw [hr] at h <;> cases h
        rfl
  · simp [step, runNext, hw] at h

/-- A run goes on from the state its first step leads to. -/
theorem run_of_next {s t : State} (h : step s = .next t) (n : Nat) :
    Host.Core.run Sys2Proof.core (n + 1) s = Host.Core.run Sys2Proof.core n t := by
  have h' : Sys2Proof.core.step s = .next t := h
  exact (Host.Core.run.eq_2 Sys2Proof.core s n).trans (by rw [h'])

/-- A run ends where a step is refused. -/
theorem run_of_refused {s : State} {r : Refusal} (h : step s = .refused r) (n : Nat) :
    Host.Core.run Sys2Proof.core (n + 1) s = .refused r := by
  have h' : Sys2Proof.core.step s = .refused r := h
  exact (Host.Core.run.eq_2 Sys2Proof.core s n).trans (by rw [h'])

@[simp] theorem State.applyEvents_nil (s : State) : s.applyEvents [] = s := rfl

@[simp] theorem State.applyEvents_cons (s : State) (e : EdgeEvent) (evs : List EdgeEvent) :
    s.applyEvents (e :: evs) = (s.applyEdge e.ts e.lv).applyEvents evs := rfl

theorem State.applyEvents_append (s : State) (a b : List EdgeEvent) :
    s.applyEvents (a ++ b) = (s.applyEvents a).applyEvents b := by
  induction a generalizing s with
  | nil => rfl
  | cons e a ih => simpa using ih _

/-- A run of events does not look at the schedule. -/
theorem State.applyEvents_withSchedule (s : State) (evs : List EdgeEvent) (rest : List Input) :
    (s.withSchedule rest).applyEvents evs = (s.applyEvents evs).withSchedule rest := by
  induction evs generalizing s with
  | nil => rfl
  | cons e evs ih => simpa [State.applyEdge_withSchedule] using ih _

/-- What holds of the NEC decoder before a run of events and is kept by every NEC step holds after it. -/
theorem State.applyEvents_nec_induction {P : NecState → Word → Prop}
    (hk : ∀ ts lv n latch, P n latch → P (necStep ts lv n latch).1 (necStep ts lv n latch).2)
    {s : State} (h : P s.nec s.necLatch) (evs : List EdgeEvent) :
    P (s.applyEvents evs).nec (s.applyEvents evs).necLatch := by
  induction evs generalizing s with
  | nil => exact h
  | cons e evs ih => exact ih (hk e.ts e.lv _ _ h)

/-- What holds of the RC6 decoder before a run of events and is kept by every RC6 step holds after it. -/
theorem State.applyEvents_rc6_induction {P : Rc6State → Half → Prop}
    (hk : ∀ ts lv r latch, P r latch → P (rc6Step ts lv r latch).1 (rc6Step ts lv r latch).2)
    {s : State} (h : P s.rc6 s.rc6Latch) (evs : List EdgeEvent) :
    P (s.applyEvents evs).rc6 (s.applyEvents evs).rc6Latch := by
  induction evs generalizing s with
  | nil => exact h
  | cons e evs ih => exact ih (hk e.ts e.lv _ _ h)

end Sys2Proof.Machine
end

