-- ==== Sys2Proof/Laws/Waveform.lean ====
section
/-! SUPPORT. What a waveform's events are, one by one. -/

namespace Sys2Proof.Machine

@[simp] theorem waveEvents_length (segs : List (Bool × Nat)) : ∀ t0, (waveEvents t0 segs).length = segs.length := by
  induction segs with
  | nil => exact fun _ => rfl
  | cons seg rest ih => exact fun t0 => by simp [waveEvents, ih]

/-- Event i of a waveform comes the durations before it after t0 (R89). -/
theorem waveEvents_getElem? (segs : List (Bool × Nat)) : ∀ t0 i : Nat, (waveEvents t0 segs)[i]? =
    segs[i]?.map fun seg => EdgeEvent.mk (BitVec.ofNat 16 (t0 + ((segs.take i).map fun s => s.2).sum)) seg.1 := by
  induction segs with
  | nil => simp [waveEvents]
  | cons seg rest ih =>
    intro t0 i
    cases i with
    | zero => simp [waveEvents]
    | succ i => simp [waveEvents, ih, Nat.add_assoc]

end Sys2Proof.Machine
end

