-- ==== Sys2Proof/Tests/Slice0.lean ====
section
/-! SUPPORT. Tests whose expected results are the spec's own (95_test_vectors.md unless said otherwise), the well-formedness smoke
tests, and for every statement with hypotheses a witness that they can be met together. -/

namespace Sys2Proof.Tests

open Sys2Proof.Machine

/-! ## States to start from -/

/-- A NEC state, the RC6 decoder in Init with the same last timestamp (the start states of 95, section 2.3). -/
def necAt (phase : NecPhase) (last : Nat) (acc : Word) (bitIndex : Nat) (latch : Word) : State :=
  { State.reset with
    nec := { phase := phase, acc := acc, bitIndex := BitVec.ofNat 8 bitIndex, last := BitVec.ofNat 16 last }
    rc6 := { Rc6State.reset with last := BitVec.ofNat 16 last }
    necLatch := latch }

/-- An RC6 state, the NEC decoder in Init with the same last timestamp (the start states of 95, section 2.4). -/
def rc6At (phase : Rc6Phase) (last : Nat) (acc : Half) (bitIndex field : Nat) (mid : Bool) : State :=
  { State.reset with
    nec := { NecState.reset with last := BitVec.ofNat 16 last }
    rc6 := { phase := phase, acc := acc, bitIndex := BitVec.ofNat 8 bitIndex, field := BitVec.ofNat 8 field, mid := mid,
             last := BitVec.ofNat 16 last } }

/-- A state that holds codes. -/
def latched (necLatch : Word) (rc6Latch : Half) : State :=
  { State.reset with necLatch := necLatch, rc6Latch := rc6Latch }

/-- A state with something scheduled. -/
def scheduled (xs : List Input) : State := { State.reset with schedule := xs }

/-- The state an outcome goes on in, if it does. -/
def goesOnIn (o : Host.Outcome State Fault Refusal) : Option State :=
  match o with
  | .next s => some s
  | _ => none

/-- The refusal an outcome stops with, if it does. -/
def stopsWith (o : Host.Outcome State Fault Refusal) : Option Refusal :=
  match o with
  | .refused r => some r
  | _ => none

/-! ## Well-formedness refuses each ill-formed term -/

theorem test_sample_table_is_well_formed : Config.sampleTable.wellFormed = true := by decide

/-- R41(a): a key None. -/
theorem test_table_with_key_none_is_refused :
    CodeTable.wellFormed { Config.sampleTable with rc6 := [(0x000C#16, .none)] } = false := by decide

/-- R41(b): five NEC entries, and six entries of which two name one key. -/
theorem test_table_with_nec_keys_wrong_is_refused :
    CodeTable.wellFormed { Config.sampleTable with nec := Config.sampleTable.nec.drop 1 } = false ∧
    CodeTable.wellFormed { Config.sampleTable with nec := (1#32, .esc) :: Config.sampleTable.nec.drop 1 } = false := by
  decide

/-- R41(c): three RC6 entries for one key. -/
theorem test_table_with_three_rc6_literals_is_refused :
    CodeTable.wellFormed { Config.sampleTable with rc6 := [(1#16, .up), (2#16, .up), (3#16, .up)] } = false := by decide

/-- R41(d): a literal 0 in either list. -/
theorem test_table_with_zero_literal_is_refused :
    CodeTable.wellFormed { Config.sampleTable with nec := (0#32, .enter) :: Config.sampleTable.nec.drop 1 } = false ∧
    CodeTable.wellFormed { Config.sampleTable with rc6 := [(0#16, .up)] } = false := by decide

/-- R88 to R91: each operand out of its range. -/
theorem test_source_operands_out_of_range_are_refused :
    [SourceOp.edge 65536 0, .edge 0 2, .wave 0 [], .wave 0 [(2, 1)], .necFrame 0 4294967296,
      .rc6Frame 0 8 0 0 4, .rc6Frame 0 0 2 0 4, .rc6Frame 0 0 0 65536 4].map SourceOp.wellFormed =
    [false, false, false, false, false, false, false, false] := by decide

/-! ## Decoding: the words of 95, section 2.2, with the EDGE words bit by bit -/

theorem test_decode_edge_words :
    decodeWord 0x200003E8#32 = .op (.edge 1000 false) ∧ decodeWord 0x20010004#32 = .op (.edge 4 true) ∧
    decodeWord 0b00100000000000011111111111111111#32 = .op (.edge 65535 true) := by decide

theorem test_decode_consumer_words :
    decodeWord 0x40000000#32 = .op .readNec ∧ decodeWord 0x60000000#32 = .op .readRc6 ∧
    decodeWord 0x80000000#32 = .op .decode := by decide

/-- V-E1, V-E5, V-E6, V-E8, V-E10, V-E12 to V-E14. -/
def illegalWords : List Word := [0x00000000, 0x20020000, 0x3FFFFFFF, 0x40000001, 0x60010000, 0xA0000000, 0xC0000000, 0xE0000000]

theorem test_illegal_words_do_not_decode : illegalWords.map decodeWord = illegalWords.map Decoded.illegal := by decide

theorem test_illegal_words_are_refused_by_name :
    illegalWords.map (fun w => stopsWith (step (scheduled [.op w]))) =
      illegalWords.map (fun w => some (.illegalOperation w)) := by decide

theorem test_table_words : decodeTableWord 32 0x20010004 = some (.edge 4 true) ∧ decodeTableWord 32 0x40000000 = some .readNec ∧
    decodeTableWord 32 0 = none := by refine ⟨?_, ?_, ?_⟩ <;> rfl

/-- A pattern with a bit above bit 31 is no operation (log 13). -/
theorem test_table_word_too_long : decodeTableWord 40 0x140000000 = none := by rfl

/-- The placed word is what the next step runs (R100's example). -/
theorem test_fetched_word_runs : (goesOnIn (step (State.reset.withFetchWord 32 0x200003E8))).map
    (fun s => (s.nec.phase, s.rc6.phase, s.nec.last, s.rc6.last, s.schedule)) =
    some (.start, .start1, 1000#16, 1000#16, []) := by decide

/-! ## The assembler (R88 to R91) -/

theorem test_assembler_lines :
    assembleLine "EDGE 1000, 0 ; R88".toList = some [0x200003E8#32] ∧
    assembleLine "EDGE 0x4, 1".toList = some [0x20010004#32] ∧
    assembleLine "READ_NEC".toList = some [0x40000000#32] ∧ assembleLine "READ_RC6".toList = some [0x60000000#32] ∧
    assembleLine "DECODE".toList = some [0x80000000#32] ∧ assembleLine "; a comment".toList = some [] ∧
    assembleLine "EDGE 65536, 0".toList = none ∧ assembleLine "EDGE 1, 2".toList = none := by decide

/-- The first words of P1's frame and of P3's first frame, as 95 lists them. -/
theorem test_frame_words :
    (assembleLine "NEC_FRAME 1000, 0xE0E016E9".toList).map (fun ws => ws.take 8) =
      some [0x200003E8#32, 0x20010442#32, 0x2000046F#32, 0x20010475#32, 0x20000486#32, 0x2001048C#32, 0x2000049D#32,
        0x200104A3#32] ∧
    (assembleLine "RC6_FRAME 1000, 0, 0, 0x000C, 4".toList).map (fun ws => (ws.length, ws.take 8)) =
      some (42, [0x200003E8#32, 0x20010400#32, 0x20000408#32, 0x2001040C#32, 0x20000414#32, 0x20010418#32, 0x2000041C#32,
        0x20010420#32]) ∧
    assembleLine "WAVE 65530, (0,10), (1, 5)".toList = some [0x2000FFFA#32, 0x20010004#32] := by decide

/-! ## EDGE: one event a row -/

/-- A row of 95, section 2.3 (phase, last, acc, bit_index and latch before; the event; phase, acc, bit_index and latch after): the step
gives what the row says, and both last timestamps move. -/
def necRowHolds (p : NecPhase) (last : Nat) (acc : Word) (i : Nat) (latch : Word) (ts : Nat) (lv : Bool)
    (p' : NecPhase) (acc' : Word) (i' : Nat) (latch' : Word) : Bool :=
  decide ((goesOnIn (exec (.edge (BitVec.ofNat 16 ts) lv) (necAt p last acc i latch))).map
      (fun s => (s.nec, s.necLatch, s.rc6.last)) =
      some ({ phase := p', acc := acc', bitIndex := BitVec.ofNat 8 i', last := BitVec.ofNat 16 ts }, latch', BitVec.ofNat 16 ts))

/-- V-N1 to V-N24. -/
theorem test_edge_nec_vectors :
    [
    necRowHolds .init 0 0 0 0 1000 false .start 0 0 0,
    necRowHolds .init 0 0 0 0 1000 true .init 0 0 0,
    necRowHolds .start 1000 0 0 0 1200 false .readWait 0 31 0,
    necRowHolds .start 1000 0 0 0 1201 false .init 0 0 0,
    necRowHolds .start 1000 0 0 0 1090 true .start 0 0 0,
    necRowHolds .readWait 2000 0 31 0 2010 true .readGet 0 31 0,
    necRowHolds .readWait 2000 0 31 0 2011 true .init 0 31 0,
    necRowHolds .readWait 2000 0 31 0 2005 false .readWait 0 31 0,
    necRowHolds .readGet 3000 0 31 0 3010 false .readWait 0 30 0,
    necRowHolds .readGet 3000 0 31 0 3011 false .readWait 0x80000000 30 0,
    necRowHolds .readGet 3000 0 31 0 3030 false .readWait 0x80000000 30 0,
    necRowHolds .readGet 3000 0 31 0 3031 false .init 0 31 0].all id = true ∧
    [
    necRowHolds .readGet 3000 0 31 0 3005 true .readGet 0 31 0,
    necRowHolds .readGet 3000 0xE0E016E8 0 0 3017 false .stop 0xE0E016E9 31 0,
    necRowHolds .stop 4000 0xE0E016E9 31 0 4010 true .init 0xE0E016E9 31 0xE0E016E9,
    necRowHolds .stop 4000 0xE0E016E9 31 0 4011 true .init 0xE0E016E9 31 0,
    necRowHolds .stop 4000 0xE0E016E9 31 0 4003 false .stop 0xE0E016E9 31 0,
    necRowHolds .readGet 65530 0 20 0 4 false .readWait 0 19 0,
    necRowHolds .readGet 65530 0 20 0 5 false .readWait 0x00100000 19 0,
    necRowHolds .readWait 1000 0 20 0 1300 false .init 0 20 0,
    necRowHolds .readWait 1000 0 20 0 1301 false .start 0 20 0,
    necRowHolds .readWait 1000 0 20 0 1301 true .init 0 20 0,
    necRowHolds .readWait 1000 0 20 0 999 true .init 0 20 0,
    necRowHolds .stop 4000 0xE0E016E9 31 0x12345678 4010 true .init 0xE0E016E9 31 0xE0E016E9].all id = true := by decide

/-- A row of 95, section 2.4 (phase, last, acc, bit_index, field and mid before; the event; the same and the latch after): the step gives
what the row says. -/
def rc6RowHolds (p : Rc6Phase) (last : Nat) (acc : Half) (i f : Nat) (m : Bool) (ts : Nat) (lv : Bool)
    (p' : Rc6Phase) (acc' : Half) (i' f' : Nat) (m' : Bool) (latch' : Half) : Bool :=
  decide ((goesOnIn (exec (.edge (BitVec.ofNat 16 ts) lv) (rc6At p last acc i f m))).map (fun s => (s.rc6, s.rc6Latch)) =
      some ({ phase := p', acc := acc', bitIndex := BitVec.ofNat 8 i', field := BitVec.ofNat 8 f', mid := m', last := BitVec.ofNat 16 ts }, latch'))

/-- V-R1 to V-R36. -/
theorem test_edge_rc6_vectors :
    [
    rc6RowHolds .init 0 0 0 0 false 1000 false .start1 0 0 0 false 0,
    rc6RowHolds .init 0 0 0 0 false 1000 true .init 0 0 0 false 0,
    rc6RowHolds .start1 1000 0 0 0 false 1030 true .start2 0 0 0 false 0,
    rc6RowHolds .start1 1000 0 0 0 false 1031 true .init 0 0 0 false 0,
    rc6RowHolds .start1 1000 0 0 0 false 1010 false .start1 0 0 0 false 0,
    rc6RowHolds .start2 1024 0 0 0 false 1039 false .start3 0 0 0 false 0,
    rc6RowHolds .start2 1024 0 0 0 false 1040 false .init 0 0 0 false 0,
    rc6RowHolds .start2 1024 0 0 0 false 1030 true .start2 0 0 0 false 0,
    rc6RowHolds .start3 1032 0 0 0 true 1037 true .readFieldWait 0 0 0 false 0,
    rc6RowHolds .start3 1032 0 0 0 false 1038 true .init 0 0 0 false 0,
    rc6RowHolds .start3 1032 0 0 0 false 1034 false .start3 0 0 0 false 0,
    rc6RowHolds .readFieldWait 1044 0 0 0 false 1048 true .readFieldWait 0 0 0 true 0,
    rc6RowHolds .readFieldWait 1044 0 0 0 true 1048 true .readFieldWait 0 0 1 false 0,
    rc6RowHolds .readFieldWait 1044 0 0 1 false 1050 true .readFieldWait 0 0 2 false 0,
    rc6RowHolds .readFieldWait 1044 0 0 2 false 1054 true .readToggle1 0 0 0 false 0,
    rc6RowHolds .readFieldWait 1044 0 0 2 true 1055 true .init 0 0 0 true 0,
    rc6RowHolds .readToggle1 1060 0 0 0 false 1064 true .readToggle1 0 0 0 true 0,
    rc6RowHolds .readToggle1 1060 0 0 0 true 1064 true .readToggle2 0 0 0 true 0].all id = true ∧
    [
    rc6RowHolds .readToggle1 1060 0 0 0 false 1066 true .readToggle2 0 0 0 false 0,
    rc6RowHolds .readToggle1 1060 0 0 0 false 1090 true .readToggle2 0 0 0 false 0,
    rc6RowHolds .readToggle1 1060 0 0 0 false 1091 true .init 0 0 0 false 0,
    rc6RowHolds .readToggle2 1072 0x1234 7 0 true 1081 true .readGet 0 0 0 true 0,
    rc6RowHolds .readToggle2 1072 0x1234 7 0 true 1082 true .readGet 0x8000 1 0 false 0,
    rc6RowHolds .readToggle2 1072 0x1234 7 0 false 1082 false .readGet 0 1 0 false 0,
    rc6RowHolds .readToggle2 1072 0x1234 7 0 false 1083 true .init 0 0 0 false 0,
    rc6RowHolds .readToggle2 1072 0x1234 7 0 false 1172 true .init 0 0 0 false 0,
    rc6RowHolds .readToggle2 1072 0x1234 7 0 false 1173 false .start1 0x1234 7 0 false 0,
    rc6RowHolds .readGet 1100 0x8000 3 0 false 1104 true .readGet 0x8000 3 0 true 0,
    rc6RowHolds .readGet 1100 0x8000 3 0 true 1104 true .readGet 0x9000 4 0 false 0,
    rc6RowHolds .readGet 1100 0 0 0 false 1104 true .readGet 0x8000 1 0 false 0,
    rc6RowHolds .readGet 1100 0x8000 3 0 false 1110 false .readGet 0x8000 4 0 false 0,
    rc6RowHolds .readGet 1100 0x8000 3 0 false 1111 false .init 0x8000 3 0 false 0,
    rc6RowHolds .readGet 1200 0x000C 15 0 true 1204 false .init 0 0 0 false 0x000C,
    rc6RowHolds .readGet 1200 0x000C 15 0 false 1208 true .init 0 0 0 false 0x000D,
    rc6RowHolds .readGet 5000 0x000C 15 2 true 5101 false .start1 0x000C 15 2 true 0,
    rc6RowHolds .readGet 5000 0x000C 15 2 true 5100 false .init 0x000C 15 2 true 0].all id = true := by decide

/-- V-D1 to V-D7. -/
theorem test_delta_vectors : deltaT 1000 0 = 1000 ∧ deltaT 4 65530 = 10 ∧ deltaT 5 65530 = 11 ∧ deltaT 999 1000 = 65535 ∧
    deltaT 5 5 = 0 ∧ deltaT 0 65535 = 1 ∧ deltaT (BitVec.ofNat 16 (1000 + 65541)) 1000 = 5 := by decide

/-! ## The latch reads and DECODE (95, section 2.6) -/

/-- What a consumer operation leaves: the result, the NEC latch, the RC6 latch. -/
def consumed (i : Instr) (s : State) : Option (Option Word × Word × Half) :=
  (goesOnIn (exec i s)).map fun t => (t.result, t.necLatch, t.rc6Latch)

/-- V-K9, V-K10, V-K12. -/
theorem test_read_nec_vectors :
    consumed .readNec (latched 0xE0E016E9 0) = some (some 0xE0E016E9, 0, 0) ∧
    consumed .readNec (latched 0 0) = some (some 0, 0, 0) ∧
    consumed .readNec (latched 0xE0E016E9 0x000C) = some (some 0xE0E016E9, 0, 0x000C) := by decide

/-- V-K11, and the NEC latch left alone (R38). -/
theorem test_read_rc6_vectors :
    consumed .readRc6 (latched 0 0x800C) = some (some 0x0000800C, 0, 0) ∧
    consumed .readRc6 (latched 0xE0E016E9 0x000C) = some (some 0x0000000C, 0xE0E016E9, 0) := by decide

/-- V-K1 to V-K7. -/
theorem test_decode_vectors : [(0#32, 0#16), (0xE0E016E9, 0), (0, 0x000C), (0, 0x800C), (0xE0E016E9, 0x0C01),
    (0x12345678, 0x0C01), (0x12345678, 0x1234)].map (fun p => consumed .decode (latched p.1 p.2)) =
    [some (some 0, 0, 0), some (some 1, 0, 0), some (some 3, 0, 0), some (some 3, 0, 0), some (some 1, 0, 0),
      some (some 1, 0, 0), some (some 0, 0, 0)] := by decide

/-- V-K8: one literal twice, the first in list order wins. -/
theorem test_decode_takes_the_first_of_equal_literals :
    consumed .decode { latched 0xE0E016E9 0 with codeTable := { Config.sampleTable with
      nec := [(0xE0E016E9, .enter), (0xE0E016E9, .esc), (1, .up), (2, .down), (3, .left), (4, .right)] } } =
      some (some 1, 0, 0) := by decide

/-! ## Reset (V-S1) and the word view (R61, R62) -/

/-- A state far from reset. -/
def busy : State :=
  { State.reset with
    nec := { phase := .readGet, acc := 0xFFFFFFFF, bitIndex := 7, last := 9 }
    rc6 := { phase := .readGet, acc := 0xFFFF, bitIndex := 9, field := 2, mid := true, last := 9 }
    necLatch := 0xE0E016E9
    rc6Latch := 0x800C }

theorem test_reset_from_any_state : (goesOnIn (step { busy with schedule := [.reset] })).map
    (fun s => (s.nec, s.rc6, s.necLatch, s.rc6Latch, s.codeTable)) =
    some (⟨.init, 0, 0, 0⟩, ⟨.init, 0, 0, 0, false, 0⟩, 0, 0, Config.sampleTable) := by decide

/-- An instance behind a bus. -/
def onBus : State := { latched 0xE0E016E9 0x800C with busBase := some 0x4000 }

theorem test_word_view_reads :
    [0x4000, 0x4004, 0x4008].map (fun addr => (goesOnIn (applyInput (.busRead addr 32) onBus)).map
      (fun s => (s.readData, s.necLatch, s.rc6Latch))) =
    [some ([0xE9, 0x16, 0xE0, 0xE0], 0, 0x800C), some ([0x0C, 0x80, 0, 0], 0xE0E016E9, 0), some ([1, 0, 0, 0], 0, 0)] := by
  decide

theorem test_word_view_refuses :
    [(0x4002, 32), (0x400B, 32), (0x4000, 16), (0x4000, 8)].map
      (fun p => stopsWith (applyInput (.busRead p.1 p.2) onBus)) =
    [some (.badOffset 2), some (.badOffset 11), some (.badWidth 16), some (.badWidth 8)] := by decide

theorem test_word_view_write_has_no_effect :
    goesOnIn (applyInput (.busWrite 0x4004 32 0xFFFFFFFF) onBus) = some onBus := by decide

/-! ## Witnesses: the hypotheses of each statement, met together, at the ends of their ranges -/

/-- Every event of the list comes at most `bound` ticks after `last`. -/
def gapsUpTo (bound : Nat) (last : Timestamp) (ts : List Timestamp) : Bool := ts.all fun t => decide (deltaT t last ≤ bound)

theorem witness_DecodeOfEncodeIsTheOperation :
    [Instr.edge 0 false, .edge 65535 true, .readNec, .readRc6, .decode].all Instr.wellFormed = true := by decide

theorem witness_LegalWordIsTheEncodingOfItsOperation :
    decodeWord 0x20000000#32 = .op (.edge 0 false) ∧ decodeWord 0x2001FFFF#32 = .op (.edge 65535 true) ∧
    decodeWord 0x40000000#32 = .op .readNec ∧ decodeWord 0x60000000#32 = .op .readRc6 ∧
    decodeWord 0x80000000#32 = .op .decode := by decide

theorem witness_WordsDecodeByMaskAndMatch :
    decodeWord 0x2000FFFF#32 = .op (.edge 65535 false) ∧ decodeWord 0x20010000#32 = .op (.edge 0 true) := by decide

theorem witness_IllegalWordsAreExactlyTheRefusedOnes :
    (scheduled [.op 0xE0000000]).codeTable.wellFormed = true ∧
    (scheduled [.op 0xE0000000]).schedule = .op 0xE0000000 :: [] ∧
    decodeWord 0xE0000000#32 = .illegal 0xE0000000#32 := by decide

/-- The largest operands in range and the smallest out of it. -/
theorem witness_AssemblerEncodesEdgeOrRefusesIt :
    ((65535 ≤ 65535 ∧ 1 ≤ 1) ∧ (65535 < 65536 ∨ 1 < 1)) ∧ (65535 < 0 ∨ 1 < 2) := by decide

theorem witness_WaveExpandsSegmentBySegment :
    [(0, 10), (0, 65536), (1, 0)] ≠ ([] : List (Nat × Nat)) ∧ (∀ seg ∈ [(0, 10), (0, 65536), (1, 0)], seg.1 ≤ 1) ∧
    [(0, 10), (0, 65536), (1, 0)][2]? = some (1, 0) := by decide

theorem witness_Rc6FrameMergesItsUnits : [(false, 3), (true, 1)][0]? = some (false, 3) ∧
    [(false, 3), (true, 1)][0 + 1]? = some (true, 1) := by decide

theorem witness_StepRunsTheDecodedOperation :
    (scheduled [.op 0x20010004, .reset]).codeTable.wellFormed = true ∧
    (scheduled [.op 0x20010004, .reset]).schedule = .op 0x20010004 :: [.reset] ∧
    decodeWord 0x20010004#32 = .op (.edge 4 true) := by decide

theorem witness_IdleStepChangesNothing : busy.codeTable.wellFormed = true ∧ busy.schedule = [] := by decide

theorem witness_ResetInputRestoresTheResetState :
    ({ busy with schedule := [.reset] } : State).codeTable.wellFormed = true ∧
    ({ busy with schedule := [.reset] } : State).schedule = .reset :: [] := by decide

theorem witness_BadTableHasNoRun :
    Config.sampleTable.wellFormed = true ∧ CodeTable.wellFormed { Config.sampleTable with nec := [] } = false ∧
    ({ State.reset with codeTable := { Config.sampleTable with nec := [] } } : State).codeTable.wellFormed = false := by
  decide

/-- Two states that agree on one decoder and its latch and on nothing else, for each decoder. -/
theorem witness_DecodersDoNotSeeEachOther :
    (busy.nec = { busy with rc6 := Rc6State.reset, rc6Latch := 0 }.nec ∧
      busy.necLatch = { busy with rc6 := Rc6State.reset, rc6Latch := 0 }.necLatch) ∧
    (busy.rc6 = { busy with nec := NecState.reset, necLatch := 0 }.rc6 ∧
      busy.rc6Latch = { busy with nec := NecState.reset, necLatch := 0 }.rc6Latch) := by decide

/-- The nearest and the farthest timestamp before the last one (V-D4). -/
theorem witness_DeltaIsTheGapModulo65536 :
    (1 ≤ 1 ∧ 1 ≤ 65535) ∧ (1 ≤ 65535 ∧ 65535 ≤ 65535) ∧ deltaT (1000 - BitVec.ofNat 16 1) 1000 = 65535 := by decide

/-- The first Δt past each guard. -/
theorem witness_GuardedEventIsHandledFromInit :
    300 < deltaT 1301 (necAt .readWait 1000 0 20 0).nec.last ∧
    100 < deltaT 1101 (rc6At .readGet 1000 0 3 0 true).rc6.last := by decide

theorem witness_NecGuardRestartsOnTheSameEvent :
    (necAt .stop 1000 0 31 0).nec.phase ≠ .init ∧ 300 < deltaT 1301 (necAt .stop 1000 0 31 0).nec.last := by decide

theorem witness_NecInitRow : State.reset.nec.phase = .init := by decide

/-- Δt 0, 200, 201 and 300: both sides of the timeout and the end of the range. -/
theorem witness_NecStartRow : (necAt .start 1000 0 0 0).nec.phase = .start ∧
    gapsUpTo 300 (necAt .start 1000 0 0 0).nec.last [1000, 1200, 1201, 1300] = true := by decide

theorem witness_NecReadWaitRow : (necAt .readWait 1000 0 31 0).nec.phase = .readWait ∧
    gapsUpTo 300 (necAt .readWait 1000 0 31 0).nec.last [1000, 1010, 1011, 1300] = true := by decide

/-- The timeout at its first Δt (31) and at the end of the range, and a rising edge at Δt 0 and 30. -/
theorem witness_NecReadGetTimeoutAndRisingEdge : (necAt .readGet 1000 0 31 0).nec.phase = .readGet ∧
    gapsUpTo 300 (necAt .readGet 1000 0 31 0).nec.last [1031, 1300, 1000, 1030] = true ∧
    (30 < deltaT 1031 (necAt .readGet 1000 0 31 0).nec.last ∨ false = true) ∧
    (30 < deltaT 1300 (necAt .readGet 1000 0 31 0).nec.last ∨ false = true) ∧
    (30 < deltaT 1000 (necAt .readGet 1000 0 31 0).nec.last ∨ true = true) := by decide

/-- At each end of the index, and Δt at both sides of the bit threshold and at the end of the range. -/
theorem witness_NecReadGetStoresTheBit : ∀ i ∈ [0, 1, 31],
    (necAt .readGet 1000 0 i 0).nec.Inv ∧ (necAt .readGet 1000 0 i 0).nec.phase = .readGet ∧
    gapsUpTo 30 (necAt .readGet 1000 0 i 0).nec.last [1000, 1010, 1011, 1030] = true := by decide

theorem witness_NecStopRow : (necAt .stop 1000 0xE0E016E9 31 0).nec.phase = .stop ∧
    gapsUpTo 300 (necAt .stop 1000 0xE0E016E9 31 0).nec.last [1000, 1010, 1011, 1300] = true := by decide

/-- Event times of a NEC run whose intervals stand at the ends of their windows: leader 200 and 200, marks 10, zero spaces 10, one
spaces 11 and 30 in turn. -/
def boundaryTimes (c : Word) (i : Nat) : Timestamp :=
  BitVec.ofNat 16 (([0, 200, 200] ++ ((List.range 32).flatMap fun k =>
    [10, if c.getLsbD (31 - k) then (if k % 2 = 0 then 11 else 30) else 10]) ++ [10]).take (i + 1)).sum

theorem witness_NecWindows : NecWindows (boundaryTimes 0xE0E016E9) 0xE0E016E9 := by
  unfold NecWindows; decide

/-- Both ways for event 0 to be handled in Init. -/
theorem witness_NecFrameCommitsIffInTheWindows :
    (State.reset.nec.phase = .init ∨ 300 < deltaT (boundaryTimes 0xE0E016E9 0) State.reset.nec.last) ∧
    300 < deltaT (boundaryTimes 0xE0E016E9 0) (necAt .stop 65235 0 31 0).nec.last := by decide

theorem witness_NecFrameCommitsItsCode :
    (State.reset.nec.phase = .init ∨ 300 < deltaT (BitVec.ofNat 16 1000) State.reset.nec.last) ∧
    300 < deltaT (BitVec.ofNat 16 1000) (necAt .readGet 699 0 12 0).nec.last := by decide

theorem witness_TruncatedNecRunsNeverReachTheLatch :
    (State.reset.nec.phase = .init ∨ 300 < deltaT 1000 State.reset.nec.last) ∧
    (List.replicate 65 (EdgeEvent.mk 1000 false)).length + 1 ≤ 66 := by decide

/-- Each alternative of each decoder: in Init, and the first Δt past the guard before and after the shift. -/
theorem witness_RolloverIsExact :
    State.reset.nec.phase = .init ∧ State.reset.rc6.phase = .init ∧
    (300 < deltaT 1301 (necAt .readGet 1000 0 31 0).nec.last ∧
      300 < deltaT (1301 + 7) (necAt .readGet 1000 0 31 0).nec.last) ∧
    (100 < deltaT 1101 (rc6At .readGet 1000 0 3 0 false).rc6.last ∧
      100 < deltaT (1101 + 7) (rc6At .readGet 1000 0 3 0 false).rc6.last) := by decide

theorem witness_Rc6GuardRestartsOnTheSameEvent : (rc6At .readFieldWait 1000 0 0 2 true).rc6.phase ≠ .init ∧
    100 < deltaT 1101 (rc6At .readFieldWait 1000 0 0 2 true).rc6.last := by decide

/-- Each leader phase, with Δt at both sides of its timeout and at the end of the range. -/
theorem witness_Rc6LeaderRows : (rc6At .init 1000 0 0 0 true).rc6.phase = .init ∧
    ((rc6At .start1 1000 0 0 0 true).rc6.phase = .start1 ∧
      gapsUpTo 100 (rc6At .start1 1000 0 0 0 true).rc6.last [1000, 1030, 1031, 1100] = true) ∧
    ((rc6At .start2 1000 0 0 0 true).rc6.phase = .start2 ∧
      gapsUpTo 100 (rc6At .start2 1000 0 0 0 true).rc6.last [1000, 1015, 1016, 1100] = true) ∧
    ((rc6At .start3 1000 0 0 0 true).rc6.phase = .start3 ∧
      gapsUpTo 100 (rc6At .start3 1000 0 0 0 true).rc6.last [1000, 1005, 1006, 1100] = true) := by decide

/-- Every field count, the flag either way, Δt at both sides of each threshold. -/
theorem witness_Rc6ReadFieldWaitRow : ∀ f ∈ [0, 1, 2], ∀ m ∈ [false, true],
    (rc6At .readFieldWait 1000 0 0 f m).rc6.Inv ∧ (rc6At .readFieldWait 1000 0 0 f m).rc6.phase = .readFieldWait ∧
    gapsUpTo 100 (rc6At .readFieldWait 1000 0 0 f m).rc6.last [1000, 1005, 1006, 1010, 1011, 1100] = true := by
  decide

theorem witness_Rc6ReadToggle1Row : ∀ m ∈ [false, true], (rc6At .readToggle1 1000 0 0 0 m).rc6.phase = .readToggle1 ∧
    gapsUpTo 100 (rc6At .readToggle1 1000 0 0 0 m).rc6.last [1000, 1005, 1006, 1030, 1031, 1100] = true := by decide

theorem witness_Rc6ReadToggle2Row : (rc6At .readToggle2 1000 0 7 0 true).rc6.phase = .readToggle2 ∧
    gapsUpTo 100 (rc6At .readToggle2 1000 0 7 0 true).rc6.last [1000, 1009, 1010, 1011, 1100] = true := by decide

/-- The timeout at its first Δt and at the end of the range; a half-bit at Δt 0 and 5. -/
theorem witness_Rc6ReadGetTimeoutAndHalfBit : (rc6At .readGet 1000 0 1 0 false).rc6.phase = .readGet ∧
    gapsUpTo 100 (rc6At .readGet 1000 0 1 0 false).rc6.last [1011, 1100, 1000, 1005] = true ∧
    (10 < deltaT 1011 (rc6At .readGet 1000 0 1 0 false).rc6.last ∧
      10 < deltaT 1100 (rc6At .readGet 1000 0 1 0 false).rc6.last) ∧
    (gapsUpTo 5 (rc6At .readGet 1000 0 1 0 false).rc6.last [1000, 1005] = true ∧
      (rc6At .readGet 1000 0 1 0 false).rc6.mid = false ∧ (rc6At .readGet 1000 0 1 0 false).rc6.bitIndex ≠ 0) := by decide

/-- The hypotheses of the statement about a stored bit, as one check. -/
def storesBit (s : State) (ts : Timestamp) : Bool :=
  decide (s.rc6.Inv ∧ s.rc6.phase = .readGet ∧ deltaT ts s.rc6.last ≤ 10 ∧
    ¬ (deltaT ts s.rc6.last ≤ 5 ∧ s.rc6.mid = false ∧ s.rc6.bitIndex ≠ 0))

/-- The first bit at Δt 0, a later one at Δt 6 and 10, the sixteenth with the flag set. -/
theorem witness_Rc6ReadGetStoresAndCommits :
    storesBit (rc6At .readGet 1000 0 0 0 false) 1000 = true ∧ storesBit (rc6At .readGet 1000 0 3 0 false) 1006 = true ∧
    storesBit (rc6At .readGet 1000 0 3 0 false) 1010 = true ∧ storesBit (rc6At .readGet 1000 0 15 0 true) 1005 = true := by
  decide

/-- The longest run too short for a frame, with no stale field count and with the largest. -/
theorem witness_TruncatedRc6RunsNeverReachTheLatch :
    ((rc6At .init 1000 0 0 0 false).rc6.Inv ∧ (rc6At .init 1000 0 0 0 false).rc6.phase = .init ∧
      (List.replicate 23 (EdgeEvent.mk 1000 false)).length + (rc6At .init 1000 0 0 0 false).rc6.field.toNat < 24) ∧
    ((rc6At .init 1000 0 0 2 false).rc6.Inv ∧ (rc6At .init 1000 0 0 2 false).rc6.phase = .init ∧
      (List.replicate 21 (EdgeEvent.mk 1000 false)).length + (rc6At .init 1000 0 0 2 false).rc6.field.toNat < 24) := by decide

theorem witness_Rc6FrameWithMatchingToggleCommits :
    (rc6At .init 1000 0xFFFF 3 0 true).rc6.phase = .init ∧ (rc6At .init 1000 0xFFFF 3 0 true).rc6.field = 0 := by decide

theorem witness_Rc6FrameWithOtherToggleIsDropped :
    State.reset.rc6.phase = .init ∧ State.reset.rc6.field = 0 := by decide

/-- V-K3's state for the RC6 clause, V-K2's for the NEC clause (its first entry), V-K7's for None. -/
theorem witness_DecodeReturnsTheFirstMatch :
    (latched 0xE0E016E9 0).codeTable.nec[0]? = some ((latched 0xE0E016E9 0).necLatch, .enter) ∧
    ((∀ e ∈ (latched 0 0x000C).codeTable.nec, e.1 ≠ (latched 0 0x000C).necLatch) ∧
      (latched 0 0x000C).codeTable.rc6[0]? = some ((latched 0 0x000C).rc6Latch, .up)) ∧
    ((∀ e ∈ (latched 0x12345678 0x1234).codeTable.nec, e.1 ≠ (latched 0x12345678 0x1234).necLatch) ∧
      ∀ e ∈ (latched 0x12345678 0x1234).codeTable.rc6, e.1 ≠ (latched 0x12345678 0x1234).rc6Latch) := by decide

theorem witness_DecodeGivesNecPriority :
    ∃ k, ((latched 0xE0E016E9 0x0C01).necLatch, k) ∈ (latched 0xE0E016E9 0x0C01).codeTable.nec := ⟨.enter, by decide⟩

theorem witness_DecodeReturnsNoneIffNothingListed : (latched 0 0).codeTable.wellFormed = true := by decide

theorem witness_SecondReadFindsNothing : (latched 0xE0E016E9 0x000C).codeTable.wellFormed = true := by decide

theorem witness_EnterIsDecodedExactlyOnce : State.reset.codeTable.wellFormed = true ∧
    State.reset.codeTable.nec[0]? = some (0xE0E016E9#32, .enter) ∧
    (State.reset.nec.phase = .init ∨ 300 < deltaT (boundaryTimes 0xE0E016E9 0) State.reset.nec.last) ∧
    NecWindows (boundaryTimes 0xE0E016E9) 0xE0E016E9#32 := ⟨by decide, by decide, by decide, witness_NecWindows⟩

theorem witness_ConsumerNeverDisturbsAFrame : ∀ i ∈ [Instr.readNec, .readRc6, .decode],
    i = .readNec ∨ i = .readRc6 ∨ i = .decode := by decide

/-- The first and the last offset, each wrong offset near a right one, and two wrong widths. -/
theorem witness_WordViewPerformsOperations : onBus.busBase = some 0x4000 ∧
    ∀ p ∈ [(0x4001, 32), (0x4003, 32), (0x4005, 32), (0x4009, 32), (0x400B, 32), (0x4000, 16), (0x4008, 64)],
      0x4000 ≤ p.1 ∧ p.1 < 0x4000 + 12 ∧
      (p.2 ≠ 32 ∨ (p.1 ≠ 0x4000 ∧ p.1 ≠ 0x4000 + 4 ∧ p.1 ≠ 0x4000 + 8)) := by decide

theorem witness_ResultWordIsLittleEndian : (wordBytes 0xE0E016E9)[0]? = some 0xE9 ∧
    (wordBytes 0xE0E016E9)[3]? = some 0xE0 := by decide

/-- Every kind of step from a state the invariant holds in: an edge, a read, reset, a bus read, and with nothing left. -/
theorem witness_EveryStepKeepsTheInvariant : ∀ xs ∈ [[Input.op 0x20010004], [.op 0x80000000], [.reset], [.busRead 0x4004 32], []],
    ({ onBus with schedule := xs } : State).Inv ∧
    (goesOnIn (step { onBus with schedule := xs })).isSome = true := by decide

/-- For each latch: a commit and a clear, each a step that changes it. -/
theorem witness_LatchesAreWrittenOnlyByCommitsReadsAndReset :
    (∃ t, step { necAt .stop 4000 0xE0E016E9 31 0 with schedule := [.op 0x20010FAA] } = .next t ∧
      t.necLatch = 0xE0E016E9) ∧
    (∃ t, step { latched 0xE0E016E9 0 with schedule := [.op 0x40000000] } = .next t ∧ t.necLatch = 0) ∧
    (∃ t, step { rc6At .readGet 1200 0x000C 15 0 true with schedule := [.op 0x200004B4] } = .next t ∧
      t.rc6Latch = 0x000C) ∧
    (∃ t, step { onBus with schedule := [.busRead 0x4008 32] } = .next t ∧ t.rc6Latch = 0) ∧
    (necAt .stop 4000 0xE0E016E9 31 0).Inv ∧ (rc6At .readGet 1200 0x000C 15 0 true).Inv ∧ onBus.Inv :=
  ⟨⟨_, rfl, by decide⟩, ⟨_, rfl, by decide⟩, ⟨_, rfl, by decide⟩, ⟨_, rfl, by decide⟩, by decide, by decide, by decide⟩

theorem witness_LegalSchedulesNeverStop :
    let s : State := { onBus with schedule := [.op 0x2001FFFF, .reset, .busRead 0x4000 32, .busWrite 0x4008 32 1] }
    s.codeTable.wellFormed = true ∧ s.LegalSchedule := by
  refine ⟨by decide, ?_⟩
  unfold State.LegalSchedule; decide

theorem witness_StepsApplyScheduledEvents :
    (scheduled [edgeInput ⟨1000, false⟩, edgeInput ⟨1090, true⟩, .reset]).codeTable.wellFormed = true ∧
    (scheduled [edgeInput ⟨1000, false⟩, edgeInput ⟨1090, true⟩, .reset]).schedule =
      [EdgeEvent.mk 1000 false, EdgeEvent.mk 1090 true].map edgeInput ++ [.reset] := by decide

/-- The reset state, and one with every unobservable field set otherwise. -/
theorem witness_OtherResetFieldsCannotBeObserved : SameButUnobservable (scheduled [.op 0x200003E8])
    { scheduled [.op 0x200003E8] with
      nec := { phase := .init, acc := 0xFFFFFFFF, bitIndex := 31, last := 7 }
      rc6 := { phase := .init, acc := 0xFFFF, bitIndex := 15, field := 0, mid := true, last := 9 } } :=
  ⟨by decide, by decide, by decide, by decide, by decide, by decide, by decide, by decide, by decide, by decide, by decide⟩

end Sys2Proof.Tests
end

/-! Steps over operation words: what one scheduled word does, and what a word placed with `withFetchWord` does. -/

namespace Sys2Proof.Machine

/-- The decoder undoes the encoder on every operation (R82, R87, R88); `Instr.wellFormed` holds of all of them. -/
@[simp] theorem decodeWord_encode (i : Instr) : decodeWord (encode i) = .op i := by
  cases i with
  | edge ts lv => exact Laws.RoundTrip.edge ts lv rfl
  | readNec => exact Laws.RoundTrip.readNec rfl
  | readRc6 => exact Laws.RoundTrip.readRc6 rfl
  | decode => exact Laws.RoundTrip.decode rfl

/-- Applying a legal word is executing the operation it decodes to (R87). -/
theorem applyInput_op_of_decodeWord {w : Word} {i : Instr} (h : decodeWord w = .op i) (s : State) :
    applyInput (.op w) s = exec i s := by
  simp only [applyInput, applyWord, h]

/-- A step that finds a legal word first in the schedule executes its operation and takes the word off (R69). -/
theorem step_of_decodeWord {s : State} {w : Word} {rest : List Input} {i : Instr}
    (hw : s.codeTable.wellFormed = true) (hs : s.schedule = .op w :: rest) (hd : decodeWord w = .op i) :
    step s = exec i (s.withSchedule rest) :=
  (step_input hw hs).trans (applyInput_op_of_decodeWord hd _)

/-- Read at 32 bits, the number of a word is that word. -/
@[simp] theorem tableWord_toNat (w : Word) : tableWord 32 w.toNat = w := by
  simp [tableWord, Nat.mod_eq_of_lt w.isLt]

/-- A word placed in front of the schedule is its first input, and what was scheduled follows (log 3). -/
@[simp] theorem State.withFetchWord_schedule (s : State) (nbits w : Nat) :
    (s.withFetchWord nbits w).schedule = .op (tableWord nbits w) :: s.schedule := rfl

@[simp] theorem State.withFetchWord_codeTable (s : State) (nbits w : Nat) :
    (s.withFetchWord nbits w).codeTable = s.codeTable := rfl

/-- Taking a placed word off again gives the state it was placed in. -/
@[simp] theorem State.withFetchWord_withSchedule_self (s : State) (nbits w : Nat) :
    (s.withFetchWord nbits w).withSchedule s.schedule = s := rfl

/-- An operation's word, placed with `withFetchWord`, is what the step runs, on the state it was placed in. -/
theorem step_withFetchWord_encode {s : State} (hw : s.codeTable.wellFormed = true) (i : Instr) :
    step (s.withFetchWord 32 (encode i).toNat) = exec i s := by
  have hd : decodeWord (tableWord 32 (encode i).toNat) = .op i := by simp
  simpa using step_of_decodeWord (s := s.withFetchWord 32 (encode i).toNat) hw rfl hd

/-- Settles O11: a legal word first in the schedule is executed on the rest of it, and a placed word is such a word.
The schedule and `withFetchWord` are the model's own (log 2 and 3). -/
theorem stepRunsTheDecodedOperation : Obligations.StepRunsTheDecodedOperation :=
  ⟨fun _ _ _ _ hw hs hd => step_of_decodeWord hw hs hd, fun _ i hw => step_withFetchWord_encode hw i⟩

end Sys2Proof.Machine

/-! The state and its invariant (10_state.md): what every step keeps of it, who writes the latches, what a well-formed CODE_TABLE
is, and that the decoders read neither the latches nor each other. -/

namespace Sys2Proof.Machine

/-! ### What keeps the invariant (R30, R35, R37) -/

/-- With a well-formed CODE_TABLE the reset state meets the invariant (R41, R291). -/
theorem State.resetWith_inv {t : CodeTable} (hw : t.wellFormed = true) (b : Option Nat) : (State.resetWith t b).Inv :=
  ⟨show NecState.reset.Inv by decide, show Rc6State.reset.Inv by decide, rfl, hw⟩

/-- EDGE keeps the invariant: each decoder keeps its ranges, and both overwrite `last` with the event's timestamp (R103). -/
theorem State.Inv.applyEdge {s : State} (h : s.Inv) (ts : Timestamp) (lv : Bool) : (s.applyEdge ts lv).Inv := by
  obtain ⟨hnec, hrc6, -, hw⟩ := h
  exact ⟨necStep_keeps_inv hnec ts lv _, rc6Step_keeps_inv hrc6 ts lv _,
    (necStep_last ts lv _ _).trans (rc6Step_last ts lv _ _).symm, hw⟩

/-- Every operation keeps the invariant; the consumer's operations write none of the fields it speaks of. -/
theorem exec_keeps_inv {s t : State} {i : Instr} (hs : s.Inv) (h : exec i s = .next t) : t.Inv := by
  rw [exec_eq] at h
  cases i with
  | edge ts lv => cases h; exact hs.applyEdge ts lv
  | readNec => cases h; exact hs
  | readRc6 => cases h; exact hs
  | decode => cases h; exact hs

/-- No operation writes CODE_TABLE (R35). -/
theorem exec_codeTable {s t : State} {i : Instr} (h : exec i s = .next t) : t.codeTable = s.codeTable := by
  rw [exec_eq] at h
  cases i <;> cases h <;> rfl

/-! ### Applied inputs as operations -/

/-- A legal word is the encoding of what it decodes to (R82, R86). -/
theorem encode_of_decodeWord {w : Word} {i : Instr} (h : decodeWord w = .op i) : encode i = w := by
  obtain ⟨hm, rfl⟩ | ⟨rfl, rfl⟩ | ⟨rfl, rfl⟩ | ⟨rfl, rfl⟩ := decodeWord_op_cases h
  · exact encode_fields_of_masked hm
  · rfl
  · rfl
  · rfl

/-- What a step that applies `x` does when it gives a next state: an operation's word or a bus read performs an operation, a bus
read none but the consumer's, reset resets, and anything else only takes `x` off the schedule. -/
theorem step_applies {s t : State} {x : Input} {rest : List Input} (hs : s.schedule = x :: rest) (h : step s = .next t) :
    (∃ i, x = .op (encode i) ∧ exec i (s.withSchedule rest) = .next t) ∨
    (∃ addr width i, x = .busRead addr width ∧ (∀ ts lv, i ≠ .edge ts lv) ∧ exec i (s.withSchedule rest) = .next t) ∨
    (x = .reset ∧ t = (s.withSchedule rest).applyReset) ∨ t = s.withSchedule rest := by
  obtain ⟨-, ⟨hnil, -⟩ | ⟨x', rest', hs', hx⟩⟩ := step_cases h
  · simp [hs] at hnil
  obtain ⟨rfl, rfl⟩ : x = x' ∧ rest = rest' := by simpa [hs] using hs'
  obtain ⟨w, i, rfl, hd, he⟩ | hreset | ⟨addr, width, rfl, he | he | he⟩ | ⟨_, _, _, -, ht⟩ := hx
  · exact .inl ⟨i, by rw [encode_of_decodeWord hd], he⟩
  · exact .inr (.inr (.inl hreset))
  · exact .inr (.inl ⟨addr, width, .readNec, rfl, nofun, he⟩)
  · exact .inr (.inl ⟨addr, width, .readRc6, rfl, nofun, he⟩)
  · exact .inr (.inl ⟨addr, width, .decode, rfl, nofun, he⟩)
  · exact .inr (.inr (.inr ht))

/-- Every step keeps the invariant and CODE_TABLE. -/
theorem step_keeps_inv {s t : State} (hinv : s.Inv) (h : step s = .next t) : t.Inv ∧ t.codeTable = s.codeTable := by
  obtain ⟨hw, -⟩ := step_cases h
  rcases hs : s.schedule with _ | ⟨x, rest⟩
  · rw [step_idle hw hs] at h
    cases h
    exact ⟨hinv, rfl⟩
  · have hrest : (s.withSchedule rest).Inv := hinv
    obtain ⟨i, -, he⟩ | ⟨_, _, i, -, -, he⟩ | ⟨-, rfl⟩ | rfl := step_applies hs h
    · exact ⟨exec_keeps_inv hrest he, exec_codeTable (s := s.withSchedule rest) he⟩
    · exact ⟨exec_keeps_inv hrest he, exec_codeTable (s := s.withSchedule rest) he⟩
    · exact ⟨State.resetWith_inv hw s.busBase, rfl⟩
    · exact ⟨hrest, rfl⟩

/-- Settles O56, by what a step applies. -/
theorem everyStepKeepsTheInvariant : Obligations.EveryStepKeepsTheInvariant :=
  fun _ _ => step_keeps_inv

/-! ### Who writes the latches (R37, R38) -/

/-- A NEC step that changes the latch is the stop edge in time, which leaves the accumulator there (R134). -/
theorem necStep_latch_change {ts : Timestamp} {lv : Bool} {n : NecState} {latch : Word}
    (h : (necStep ts lv n latch).2 ≠ latch) :
    (necStep ts lv n latch).2 = n.acc ∧ n.phase = .stop ∧ (necStep ts lv n latch).1.phase = .init ∧
      lv = true ∧ deltaT ts n.last ≤ NEC_STOP_TO := by
  obtain ⟨p, -, he⟩ | ⟨-, -, -, he⟩ | ⟨-, -, -, he⟩ | ⟨hp, hlv, hdt, he⟩ := necStep_cases ts lv n latch <;> rw [he] at h ⊢
  iterate 3 · exact absurd rfl h
  · exact ⟨rfl, hp, rfl, hlv, hdt⟩

/-- An RC6 step that changes the latch is the sixteenth data bit in time (R183). -/
theorem rc6Step_latch_change {ts : Timestamp} {lv : Bool} {r : Rc6State} {latch : Half}
    (h : (rc6Step ts lv r latch).2 ≠ latch) :
    r.bitIndex = 15 ∧ r.phase = .readGet ∧ (rc6Step ts lv r latch).1.phase = .init ∧
      deltaT ts r.last ≤ RC6_GET_TO := by
  obtain ⟨p, -, he⟩ | ⟨-, he⟩ | ⟨-, he⟩ | ⟨-, he⟩ | ⟨-, he⟩ | ⟨-, he⟩ | ⟨-, he⟩ | ⟨-, he⟩ | ⟨hp, hdt, he⟩ :=
    rc6Step_cases ts lv r latch <;> rw [he] at h ⊢
  iterate 8 · exact absurd rfl h
  · rw [rc6Commit] at h ⊢
    split_ifs at h ⊢ with h16
    · exact ⟨(inc_eq_sixteen r.bitIndex).1 h16, hp, rfl, hdt⟩
    · exact absurd rfl h

/-- An operation that changes the NEC latch is an EDGE that commits, or a read that clears it. -/
theorem exec_necLatch_change {s t : State} {i : Instr} (h : exec i s = .next t) (hne : t.necLatch ≠ s.necLatch) :
    (t.necLatch = s.nec.acc ∧ s.nec.phase = .stop ∧ t.nec.phase = .init ∧
      ∃ ts, i = .edge ts true ∧ deltaT ts s.nec.last ≤ 10) ∨
    (t.necLatch = 0 ∧ (i = .readNec ∨ i = .decode)) := by
  rw [exec_eq] at h
  cases i with
  | edge ts lv =>
    cases h
    obtain ⟨hacc, hp, hp', rfl, hdt⟩ := necStep_latch_change hne
    exact .inl ⟨hacc, hp, hp', ts, rfl, hdt⟩
  | readNec => cases h; exact .inr ⟨rfl, .inl rfl⟩
  | readRc6 => cases h; exact absurd rfl hne
  | decode => cases h; exact .inr ⟨rfl, .inr rfl⟩

/-- An operation that changes the RC6 latch is an EDGE that commits, or a read that clears it. -/
theorem exec_rc6Latch_change {s t : State} {i : Instr} (h : exec i s = .next t) (hne : t.rc6Latch ≠ s.rc6Latch) :
    (s.rc6.bitIndex = 15 ∧ s.rc6.phase = .readGet ∧ t.rc6.phase = .init ∧
      ∃ ts lv, i = .edge ts lv ∧ deltaT ts s.rc6.last ≤ 10) ∨
    (t.rc6Latch = 0 ∧ (i = .readRc6 ∨ i = .decode)) := by
  rw [exec_eq] at h
  cases i with
  | edge ts lv =>
    cases h
    obtain ⟨hi, hp, hp', hdt⟩ := rc6Step_latch_change hne
    exact .inl ⟨hi, hp, hp', ts, lv, rfl, hdt⟩
  | readNec => cases h; exact absurd rfl hne
  | readRc6 => cases h; exact .inr ⟨rfl, .inl rfl⟩
  | decode => cases h; exact .inr ⟨rfl, .inr rfl⟩

/-- Settles O57: by what the step applies, and by what an operation can do to each latch. The invariant is not needed. -/
theorem latchesAreWrittenOnlyByCommitsReadsAndReset : Obligations.LatchesAreWrittenOnlyByCommitsReadsAndReset := by
  intro s t x rest _ hs h
  obtain ⟨i, rfl, he⟩ | ⟨addr, width, i, rfl, hi, he⟩ | ⟨rfl, rfl⟩ | rfl := step_applies hs h
  · constructor <;> intro hne
    · obtain ⟨hacc, hp, hp', ts, rfl, hdt⟩ | ⟨h0, rfl | rfl⟩ := exec_necLatch_change he hne
      · exact .inl ⟨hacc, hp, hp', ts, rfl, hdt⟩
      · exact .inr ⟨h0, .inr (.inl rfl)⟩
      · exact .inr ⟨h0, .inr (.inr (.inl rfl))⟩
    · obtain ⟨hb, hp, hp', ts, lv, rfl, hdt⟩ | ⟨h0, rfl | rfl⟩ := exec_rc6Latch_change he hne
      · exact .inl ⟨hb, hp, hp', ts, lv, rfl, hdt⟩
      · exact .inr ⟨h0, .inr (.inl rfl)⟩
      · exact .inr ⟨h0, .inr (.inr (.inl rfl))⟩
  · constructor <;> intro hne
    · obtain ⟨-, -, -, ts, hedge, -⟩ | ⟨h0, -⟩ := exec_necLatch_change he hne
      · exact absurd hedge (hi ts true)
      · exact .inr ⟨h0, .inr (.inr (.inr ⟨addr, width, rfl⟩))⟩
    · obtain ⟨-, -, -, ts, lv, hedge, -⟩ | ⟨h0, -⟩ := exec_rc6Latch_change he hne
      · exact absurd hedge (hi ts lv)
      · exact .inr ⟨h0, .inr (.inr (.inr ⟨addr, width, rfl⟩))⟩
  · exact ⟨fun _ => .inr ⟨rfl, .inl rfl⟩, fun _ => .inr ⟨rfl, .inl rfl⟩⟩
  · exact ⟨fun hne => absurd rfl hne, fun hne => absurd rfl hne⟩

/-! ### What a well-formed CODE_TABLE is (R41) -/

/-- The keys an entry may name are all but None (R39). -/
theorem mem_realKeys {k : KeyId} : k ∈ realKeys ↔ k ≠ .none := by
  cases k <;> decide

/-- A check run over the six keys is a check of every key but None. -/
theorem realKeys_all {p : KeyId → Bool} : realKeys.all p = true ↔ ∀ k, k ≠ .none → p k = true := by
  simp only [List.all_eq_true, mem_realKeys]

/-- R41(a). -/
theorem keysNamed_iff {t : CodeTable} :
    keysNamed t = true ↔ (∀ e ∈ t.nec, e.2 ≠ .none) ∧ (∀ e ∈ t.rc6, e.2 ≠ .none) := by
  simp only [keysNamed, Bool.and_eq_true, List.all_eq_true, decide_eq_true_eq]

/-- R41(b), counting a key's entries as the length of the list of them. -/
theorem oneNecLiteralPerKey_iff {t : CodeTable} : oneNecLiteralPerKey t = true ↔
    t.nec.length = 6 ∧ ∀ k, k ≠ .none → (t.nec.filter fun e => decide (e.2 = k)).length = 1 := by
  simp only [oneNecLiteralPerKey, entriesFor, List.countP_eq_length_filter, Bool.and_eq_true, decide_eq_true_eq,
    realKeys_all]

/-- R41(c), counted in the same way. -/
theorem atMostTwoRc6LiteralsPerKey_iff {t : CodeTable} : atMostTwoRc6LiteralsPerKey t = true ↔
    t.rc6.length ≤ 12 ∧ ∀ k, k ≠ .none → (t.rc6.filter fun e => decide (e.2 = k)).length ≤ 2 := by
  simp only [atMostTwoRc6LiteralsPerKey, entriesFor, List.countP_eq_length_filter, Bool.and_eq_true, decide_eq_true_eq,
    realKeys_all]

/-- R41(d). -/
theorem noZeroLiteral_iff {t : CodeTable} :
    noZeroLiteral t = true ↔ (∀ e ∈ t.nec, e.1 ≠ 0) ∧ (∀ e ∈ t.rc6, e.1 ≠ 0) := by
  simp only [noZeroLiteral, Bool.and_eq_true, List.all_eq_true, decide_eq_true_eq]

/-- Settles O15, from one equivalence for each of R41's four conditions. -/
theorem wellFormedTableConditions : Obligations.WellFormedTableConditions := by
  intro t
  simp only [CodeTable.wellFormed, Bool.and_eq_true, keysNamed_iff, oneNecLiteralPerKey_iff,
    atMostTwoRc6LiteralsPerKey_iff, noZeroLiteral_iff, and_assoc]

/-! ### The decoders do not read the latches or each other (R38) -/

/-- What a row of the NEC decoder does to it does not depend on the latch: the latch is only ever overwritten (R68). -/
theorem necRow_fst_latch (dt : Nat) (lv : Bool) (n : NecState) (latch latch' : Word) :
    (necRow dt lv n latch).1 = (necRow dt lv n latch').1 := by
  obtain ⟨p, acc, i, last⟩ := n
  cases p with
  | init | start | readWait | readGet => rfl
  | stop => simp only [necRow, necStop]; split_ifs <;> rfl

/-- What the ReadGet body does to the RC6 decoder does not depend on the latch (R68). -/
theorem rc6Get_fst_latch (dt : Nat) (lv : Bool) (r : Rc6State) (latch latch' : Half) :
    (rc6Get dt lv r latch).1 = (rc6Get dt lv r latch').1 := by
  simp only [rc6Get, rc6Commit]
  split_ifs <;> rfl

/-- What a row of the RC6 decoder does to it does not depend on the latch. -/
theorem rc6Row_fst_latch (dt : Nat) (lv : Bool) (r : Rc6State) (latch latch' : Half) :
    (rc6Row dt lv r latch).1 = (rc6Row dt lv r latch').1 := by
  obtain ⟨p, acc, i, f, m, last⟩ := r
  cases p with
  | init | start1 | start2 | start3 | readFieldWait | readToggle1 => rfl
  | readToggle2 => simp only [rc6Row, rc6ReadToggle2_eq]
  | readGet => exact rc6Get_fst_latch dt lv _ latch latch'

/-- A run of events takes the NEC decoder on from its own state alone. -/
theorem State.applyEvents_nec_congr {s s' : State} (h : s.nec = s'.nec) (evs : List EdgeEvent) :
    (s.applyEvents evs).nec = (s'.applyEvents evs).nec := by
  induction evs generalizing s s' with
  | nil => exact h
  | cons e evs ih =>
    refine ih ?_
    rw [State.applyEdge_nec, State.applyEdge_nec, h]
    exact necRow_fst_latch _ _ _ _ _

/-- A run of events takes the RC6 decoder on from its own state alone. -/
theorem State.applyEvents_rc6_congr {s s' : State} (h : s.rc6 = s'.rc6) (evs : List EdgeEvent) :
    (s.applyEvents evs).rc6 = (s'.applyEvents evs).rc6 := by
  induction evs generalizing s s' with
  | nil => exact h
  | cons e evs ih =>
    refine ih ?_
    rw [State.applyEdge_rc6, State.applyEdge_rc6, h]
    exact rc6Row_fst_latch _ _ _ _ _

/-- Settles O51: the consumer's operations leave both decoders as they are, and a run of events does not read the latches. -/
theorem consumerNeverDisturbsAFrame : Obligations.ConsumerNeverDisturbsAFrame := by
  intro s i evs hi
  obtain ⟨t, he, hnec, hrc6⟩ : ∃ t, exec i s = .next t ∧ t.nec = s.nec ∧ t.rc6 = s.rc6 := by
    obtain rfl | rfl | rfl := hi <;> exact ⟨_, exec_eq _ s, rfl, rfl⟩
  exact ⟨t, he, State.applyEvents_nec_congr hnec evs, State.applyEvents_rc6_congr hrc6 evs⟩

/-- Settles O19: EDGE computes each decoder and its latch from these alone. -/
theorem decodersDoNotSeeEachOther : Obligations.DecodersDoNotSeeEachOther := by
  intro ts lv s s'
  refine ⟨s.applyEdge ts lv, s'.applyEdge ts lv, exec_eq _ s, exec_eq _ s', fun hn hl => ?_, fun hr hl => ?_⟩
  · simp only [State.applyEdge_nec, State.applyEdge_necLatch, hn, hl, and_self]
  · simp only [State.applyEdge_rc6, State.applyEdge_rc6Latch, hr, hl, and_self]

/-! ### Fixed values -/

/-- Settles O9: the numbers as `keyCode` and the phase numberings write them. -/
theorem namesHaveTheSpecsNumbers : Obligations.NamesHaveTheSpecsNumbers := by
  unfold Obligations.NamesHaveTheSpecsNumbers
  decide

/-- Settles O55: the reset state with the model's sample table (log 4), which is well-formed. -/
theorem invariantHoldsAtReset : Obligations.InvariantHoldsAtReset :=
  State.resetWith_inv (show Config.codeTable.wellFormed = true by decide) Config.busBase

end Sys2Proof.Machine

/-! The word view (20_memory.md R61 to R63), reads that find nothing, and runs of the whole machine: that legal inputs never stop
it, and that steps over scheduled events are the run of those events. -/

namespace Sys2Proof.Machine

/-! ### What every operation keeps (R35, R71) -/

/-- `t` has the parameters of `s` (R7, R61) and the same inputs still to come. -/
abbrev State.SameParamsAndSchedule (s t : State) : Prop :=
  t.codeTable = s.codeTable ∧ t.busBase = s.busBase ∧ t.schedule = s.schedule

/-- Every operation completes and writes neither the parameters nor the schedule (R71, R260). -/
theorem exec_completes (i : Instr) (s : State) : ∃ t, exec i s = .next t ∧ s.SameParamsAndSchedule t := by
  refine ⟨_, exec_eq i s, ?_⟩
  cases i with
  | edge ts lv => exact ⟨rfl, rfl, rfl⟩
  | readNec => exact ⟨rfl, rfl, rfl⟩
  | readRc6 => exact ⟨rfl, rfl, rfl⟩
  | decode => exact ⟨rfl, rfl, rfl⟩

/-- Settles O54. -/
theorem everyOperationCompletes : Obligations.EveryOperationCompletes :=
  exec_completes

/-! ### A read of an empty latch (R67, R225) -/

/-- Where no literal is 0, an empty latch matches nothing. -/
theorem lookupCode_zero {w : Nat} {l : List (BitVec w × KeyId)} (h : ∀ e ∈ l, e.1 ≠ 0) : lookupCode 0 l = none :=
  lookupCode_eq_none.2 fun _ hmem => h _ hmem rfl

/-- Under a well-formed CODE_TABLE two empty latches give None, by R41(d). -/
theorem mapCodes_zero {t : CodeTable} (hw : t.wellFormed = true) : mapCodes t 0 0 = .none := by
  have hz : noZeroLiteral t = true := by
    rw [CodeTable.wellFormed, Bool.and_eq_true] at hw
    exact hw.2
  obtain ⟨hnec, hrc6⟩ := noZeroLiteral_iff.1 hz
  rw [mapCodes, lookupCode_zero hnec, lookupCode_zero hrc6]

/-- Settles O49: the first read leaves its latches at 0, which READ_NEC and READ_RC6 return as they are and DECODE maps to
None. -/
theorem secondReadFindsNothing : Obligations.SecondReadFindsNothing := by
  intro s hw
  refine ⟨⟨_, _, exec_eq _ _, exec_eq _ _, rfl⟩, ⟨_, _, exec_eq _ _, exec_eq _ _, rfl⟩,
    ⟨_, _, exec_eq _ _, exec_eq _ _, ?_⟩⟩
  show some (keyResultWord (mapCodes s.codeTable 0 0)) = some 0
  rw [mapCodes_zero hw]
  rfl

/-! ### The layout of a word (R62) -/

/-- Bit `j` of byte `k` is bit `8k + j` of the word. -/
theorem byteOf_getLsbD (w : Word) (k : Nat) {j : Nat} (hj : j < 8) : (byteOf w k).getLsbD j = w.getLsbD (8 * k + j) := by
  simp [byteOf, hj]

/-- The bytes of a word in order of their offsets. -/
theorem wordBytes_eq_map (w : Word) : wordBytes w = (List.range 4).map (byteOf w) := rfl

/-- The byte at offset `k`, where there is one. -/
theorem eq_byteOf_of_getElem? {w : Word} {k : Nat} {b : Byte} (h : (wordBytes w)[k]? = some b) : b = byteOf w k := by
  obtain ⟨hk, rfl⟩ := List.getElem?_eq_some_iff.1 h
  simp [wordBytes_eq_map]

/-- Settles O53: the byte at offset `k` is `byteOf w k`. -/
theorem resultWordIsLittleEndian : Obligations.ResultWordIsLittleEndian := by
  refine fun w => ⟨rfl, fun k b hb j hj => ?_⟩
  rw [eq_byteOf_of_getElem? hb]
  exact byteOf_getLsbD w k hj

/-! ### Accesses in the window (R61, R63) -/

section Window
variable {s : State} {base : Nat}

/-- A 32-bit access in the window passes the checks with its offset. -/
theorem busOffset_window {k : Nat} (hk : k < 12) : busOffset (some base) (base + k) 32 = .ok k := by
  simp [busOffset, hk]

/-- An access in the window of another width is refused for its width. -/
theorem busOffset_badWidth {k width : Nat} (hk : k < 12) (hw : width ≠ 32) :
    busOffset (some base) (base + k) width = .error (.badWidth width) := by
  simp [busOffset, hk, hw]

/-- A 32-bit read in the window reads the word at its offset. -/
theorem busRead_window (hb : s.busBase = some base) {k : Nat} (hk : k < 12) : busRead (base + k) 32 s = readWindow k s := by
  rw [busRead, hb, busOffset_window hk]

/-- A 32-bit write in the window writes the word at its offset. -/
theorem busWrite_window (hb : s.busBase = some base) {k : Nat} (hk : k < 12) :
    busWrite (base + k) 32 s = writeWindow k s := by
  rw [busWrite, hb, busOffset_window hk]

/-- No word of the window stands at another offset to be read. -/
theorem readWindow_badOffset {k : Nat} (hk : k ≠ 0 ∧ k ≠ 4 ∧ k ≠ 8) : readWindow k s = .refused (.badOffset k) := by
  simp [readWindow, hk]

/-- No word of the window stands at another offset to be written. -/
theorem writeWindow_badOffset {k : Nat} (hk : k ≠ 0 ∧ k ≠ 4 ∧ k ≠ 8) : writeWindow k s = .refused (.badOffset k) := by
  simp [writeWindow, hk]

/-- An access in the window at another offset or of another width is refused, read or write. -/
theorem busAccess_refused (hb : s.busBase = some base) {k width : Nat} (hk : k < 12)
    (h : width ≠ 32 ∨ (k ≠ 0 ∧ k ≠ 4 ∧ k ≠ 8)) :
    ∃ r, busRead (base + k) width s = .refused r ∧ busWrite (base + k) width s = .refused r := by
  by_cases hw : width = 32
  · subst hw
    have hoff : k ≠ 0 ∧ k ≠ 4 ∧ k ≠ 8 := h.resolve_left (absurd rfl)
    exact ⟨_, (busRead_window hb hk).trans (readWindow_badOffset hoff),
      (busWrite_window hb hk).trans (writeWindow_badOffset hoff)⟩
  · refine ⟨.badWidth width, ?_, ?_⟩
    · rw [busRead, hb, busOffset_badWidth hk hw]
    · rw [busWrite, hb, busOffset_badWidth hk hw]

end Window

/-- Settles O52, by the offset of the access. -/
theorem wordViewPerformsOperations : Obligations.WordViewPerformsOperations := by
  intro s base hb
  refine ⟨busRead_window hb (k := 0) (by decide), busRead_window hb (by decide), busRead_window hb (by decide),
    fun v => ⟨busWrite_window hb (k := 0) (by decide), busWrite_window hb (by decide), busWrite_window hb (by decide)⟩, ?_⟩
  intro addr width v hlo hhi h
  obtain ⟨k, rfl⟩ := Nat.exists_eq_add_of_le hlo
  obtain ⟨r, hr, hw⟩ := busAccess_refused (width := width) hb (k := k) (by omega) (by omega)
  exact ⟨⟨r, hr⟩, ⟨r, hw⟩⟩

/-! ### Runs of inputs that have a meaning (R71, R109, R260) -/

/-- A meaningful access is 32 bits wide and at one of the window's three words. -/
theorem meaningfulAccess_cases {b : Option Nat} {addr width : Nat} (h : meaningfulAccess b addr width = true) :
    width = 32 ∧ ∃ base k, b = some base ∧ addr = base + k ∧ (k = 0 ∨ k = 4 ∨ k = 8) := by
  cases b with
  | none => cases h
  | some base =>
    simp only [meaningfulAccess, Bool.and_eq_true, Bool.or_eq_true, decide_eq_true_eq, or_assoc] at h
    obtain ⟨hw, ha | ha | ha⟩ := h
    · exact ⟨hw, base, 0, rfl, ha, .inl rfl⟩
    · exact ⟨hw, base, 4, rfl, ha, .inr (.inl rfl)⟩
    · exact ⟨hw, base, 8, rfl, ha, .inr (.inr rfl)⟩

/-- A meaningful read performs an operation. -/
theorem busRead_of_meaningful {s : State} {addr width : Nat} (h : meaningfulAccess s.busBase addr width = true) :
    ∃ i, busRead addr width s = exec i s := by
  obtain ⟨rfl, base, k, hb, rfl, rfl | rfl | rfl⟩ := meaningfulAccess_cases h
  · exact ⟨.readNec, busRead_window hb (by decide)⟩
  · exact ⟨.readRc6, busRead_window hb (by decide)⟩
  · exact ⟨.decode, busRead_window hb (by decide)⟩

/-- A meaningful write has no effect. -/
theorem busWrite_of_meaningful {s : State} {addr width : Nat} (h : meaningfulAccess s.busBase addr width = true) :
    busWrite addr width s = .next s := by
  obtain ⟨rfl, base, k, hb, rfl, rfl | rfl | rfl⟩ := meaningfulAccess_cases h <;> exact busWrite_window hb (by decide)

/-- A word whose operation can be taken out is legal. -/
theorem decodeWord_op_of_isSome {w : Word} (h : (decodeWord w).toOption.isSome = true) : ∃ i, decodeWord w = .op i := by
  cases hd : decodeWord w with
  | op i => exact ⟨i, rfl⟩
  | illegal v => rw [hd] at h; cases h

/-- An input that has a meaning is applied, and the parameters and the rest of the schedule stay. -/
theorem applyInput_of_meaningful {s : State} {x : Input} (h : s.meaningful x = true) :
    ∃ t, applyInput x s = .next t ∧ s.SameParamsAndSchedule t := by
  cases x with
  | op w =>
    obtain ⟨i, hd⟩ := decodeWord_op_of_isSome h
    rw [applyInput_op_of_decodeWord hd]
    exact exec_completes i s
  | reset => exact ⟨_, rfl, rfl, rfl, rfl⟩
  | busRead addr width =>
    obtain ⟨i, hi⟩ := busRead_of_meaningful h
    rw [applyInput, hi]
    exact exec_completes i s
  | busWrite addr width v => exact ⟨s, busWrite_of_meaningful h, rfl, rfl, rfl⟩

/-- What has a meaning depends on the base of the word view alone. -/
theorem State.meaningful_congr {s t : State} (h : t.busBase = s.busBase) (x : Input) : t.meaningful x = s.meaningful x := by
  cases x with
  | op w => rfl
  | reset => rfl
  | busRead addr width => simp only [State.meaningful, h]
  | busWrite addr width v => simp only [State.meaningful, h]

/-- A state with a well-formed table whose scheduled inputs all have a meaning takes a step, to such a state again. -/
theorem step_of_legalSchedule {s : State} (hw : s.codeTable.wellFormed = true) (hl : s.LegalSchedule) :
    ∃ t, step s = .next t ∧ t.codeTable.wellFormed = true ∧ t.LegalSchedule := by
  rcases hs : s.schedule with _ | ⟨x, rest⟩
  · exact ⟨s, step_idle hw hs, hw, hl⟩
  · have hx : ∀ y ∈ x :: rest, s.meaningful y = true := hs ▸ hl
    obtain ⟨t, ht, htable, hbase, hsched⟩ :=
      applyInput_of_meaningful (s := s.withSchedule rest) (hx x List.mem_cons_self)
    refine ⟨t, (step_input hw hs).trans ht, htable ▸ hw, fun y hy => ?_⟩
    have hmem : y ∈ rest := by simpa [hsched] using hy
    exact (State.meaningful_congr hbase y).trans (hx y (List.mem_cons_of_mem x hmem))

/-- Settles O58, by induction on the number of steps. -/
theorem legalSchedulesNeverStop : Obligations.LegalSchedulesNeverStop := by
  intro s n
  induction n generalizing s with
  | zero => exact fun _ _ => ⟨s, rfl⟩
  | succ n ih =>
    intro hw hl
    obtain ⟨t, ht, hw', hl'⟩ := step_of_legalSchedule hw hl
    rw [run_of_next ht]
    exact ih t hw' hl'

/-! ### Runs of scheduled events (R69, R109) -/

/-- A step over a scheduled event is the event on the state, with the rest of the schedule left. -/
theorem step_edgeInput {s : State} {e : EdgeEvent} {rest : List Input} (hw : s.codeTable.wellFormed = true)
    (hs : s.schedule = edgeInput e :: rest) : step s = .next ((s.applyEdge e.ts e.lv).withSchedule rest) := by
  rw [step_input hw hs, applyInput_edge, State.applyEdge_withSchedule]

/-- Settles O59, by induction on the events: the run of the later ones does not look at the schedule. -/
theorem stepsApplyScheduledEvents : Obligations.StepsApplyScheduledEvents := by
  intro evs
  induction evs with
  | nil => rintro s _ - rfl; rfl
  | cons e evs ih =>
    intro s rest hw hs
    calc Host.Core.run Sys2Proof.core (evs.length + 1) s
        = Host.Core.run Sys2Proof.core evs.length
            ((s.applyEdge e.ts e.lv).withSchedule (evs.map edgeInput ++ rest)) := run_of_next (step_edgeInput hw hs) _
      _ = .next ((((s.applyEdge e.ts e.lv).withSchedule (evs.map edgeInput ++ rest)).applyEvents evs).withSchedule rest) :=
          ih _ rest hw rfl
      _ = .next ((s.applyEvents (e :: evs)).withSchedule rest) := by
          rw [State.applyEvents_withSchedule, State.withSchedule_withSchedule, State.applyEvents_cons]

end Sys2Proof.Machine

/-! Encoding (30_encoding.md): which words are whose, as numbers; result words; what the assembler makes of EDGE, WAVE and the
two frames; and that a NEC frame commits its code. -/

namespace Sys2Proof.Machine

/-- Settles O1: `decodeWord_encode` holds of every operation. -/
theorem decodeOfEncodeIsTheOperation : Obligations.DecodeOfEncodeIsTheOperation :=
  fun i _ => decodeWord_encode i

/-- Settles O2. -/
theorem legalWordIsTheEncodingOfItsOperation : Obligations.LegalWordIsTheEncodingOfItsOperation :=
  fun _ _ => encode_of_decodeWord

/-- The words of an operation are its encoding alone (R82, R86, R87). -/
theorem decodeWord_eq_op_iff {w : Word} {i : Instr} : decodeWord w = .op i ↔ w = encode i :=
  ⟨fun h => (encode_of_decodeWord h).symm, fun h => h ▸ decodeWord_encode i⟩

/-- The operand T of a word as a number (R83). -/
theorem fieldT_toNat (w : Word) : (fieldT w).toNat = w.toNat % 65536 := by
  simp [fieldT]

/-- The operand L of a word as a number (R83). -/
theorem fieldL_toNat (w : Word) : (fieldL w).toNat = w.toNat / 65536 % 2 := by
  simp [fieldL, BitVec.getLsbD, Nat.toNat_testBit]

/-- The words of EDGE are those that match its row (R82). -/
theorem masked_iff_decodeWord_edge (w : Word) :
    w &&& 0xFFFE0000#32 = 0x20000000#32 ↔ ∃ ts lv, decodeWord w = .op (.edge ts lv) := by
  constructor
  · exact fun h => ⟨fieldT w, fieldL w, decodeWord_eq_op_iff.2 (encode_fields_of_masked h).symm⟩
  · rintro ⟨ts, lv, h⟩
    rw [decodeWord_eq_op_iff.1 h]
    exact encode_edge_masked ts lv

/-- The operands EDGE is decoded with are the word's fields (R83). -/
theorem decodeWord_edge_fields {w : Word} {ts : Timestamp} {lv : Bool} (h : decodeWord w = .op (.edge ts lv)) :
    ts = fieldT w ∧ lv = fieldL w := by
  rw [decodeWord_eq_op_iff.1 h]
  simp

/-- A full mask leaves the whole word to match (R82). -/
theorem and_fullMask (w : Word) : w &&& 0xFFFFFFFF#32 = w :=
  BitVec.and_allOnes

/-- Settles O3: EDGE's row by its mask, the other rows as the one word of their operation. -/
theorem wordsDecodeByMaskAndMatch : Obligations.WordsDecodeByMaskAndMatch := by
  intro w
  rw [and_fullMask]
  refine ⟨masked_iff_decodeWord_edge w, fun ts lv h => ?_, (decodeWord_eq_op_iff (i := .readNec)).symm,
    (decodeWord_eq_op_iff (i := .readRc6)).symm, (decodeWord_eq_op_iff (i := .decode)).symm⟩
  obtain ⟨rfl, rfl⟩ := decodeWord_edge_fields h
  exact ⟨fieldT_toNat w, fieldL_toNat w⟩

/-- The word of EDGE as a number (R88): its three parts stand in disjoint fields. -/
theorem encode_edge_toNat (ts : Timestamp) (lv : Bool) :
    (encode (.edge ts lv)).toNat = 0x20000000 + lv.toNat * 65536 + ts.toNat := by
  have hor (n : Nat) : n <<< 16 + ts.toNat = n <<< 16 ||| ts.toNat := Nat.shiftLeft_add_eq_or_of_lt ts.isLt n
  have hts : ts.toNat % 4294967296 = ts.toNat := Nat.mod_eq_of_lt (by omega)
  cases lv with
  | false => simpa [encode, hts] using (hor 0x2000).symm
  | true => simpa [encode, hts] using (hor 0x2001).symm

/-- The legal words as numbers: bits [31:17] are those of EDGE's match, or the word is one of the other three (R82). -/
theorem exists_decodeWord_op_iff (w : Word) : (∃ i, decodeWord w = .op i) ↔
    w.toNat / 2 ^ 17 = 2 ^ 12 ∨ w.toNat = 2 * 2 ^ 29 ∨ w.toNat = 3 * 2 ^ 29 ∨ w.toNat = 4 * 2 ^ 29 := by
  simp only [decodeWord_eq_op_iff]
  constructor
  · rintro ⟨i, rfl⟩
    cases i with
    | edge ts lv =>
      rw [encode_edge_toNat]
      have := ts.isLt
      have := lv.toNat_lt
      omega
    | readNec => decide
    | readRc6 => decide
    | decode => decide
  · rintro (h | h | h | h)
    · refine ⟨.edge (fieldT w) (fieldL w), BitVec.eq_of_toNat_eq ?_⟩
      rw [encode_edge_toNat, fieldT_toNat, fieldL_toNat]
      omega
    · exact ⟨.readNec, BitVec.eq_of_toNat_eq h⟩
    · exact ⟨.readRc6, BitVec.eq_of_toNat_eq h⟩
    · exact ⟨.decode, BitVec.eq_of_toNat_eq h⟩

/-- A word is illegal when it is no operation's (R87). -/
theorem decodeWord_eq_illegal_iff (w : Word) : decodeWord w = .illegal w ↔ ¬ ∃ i, decodeWord w = .op i := by
  cases h : decodeWord w with
  | op i => simp
  | illegal v => simp [decodeWord_illegal h]

/-- A step that finds an illegal word first in the schedule is refused under that word (R86, R262). -/
theorem step_of_illegal {s : State} {w : Word} {rest : List Input} (hw : s.codeTable.wellFormed = true)
    (hs : s.schedule = .op w :: rest) (hd : decodeWord w = .illegal w) : step s = .refused (.illegalOperation w) := by
  rw [step_input hw hs, applyInput, applyWord, hd]

/-- Settles O4: R86's two kinds of words are together the numbers that no legal word has. -/
theorem illegalWordsAreExactlyTheRefusedOnes : Obligations.IllegalWordsAreExactlyTheRefusedOnes := by
  refine ⟨fun w => ?_, fun _ _ _ => step_of_illegal⟩
  rw [decodeWord_eq_illegal_iff, exists_decodeWord_op_iff]
  have := w.isLt
  simp only [List.mem_cons, List.not_mem_nil, or_false]
  omega

/-- Settles O5. -/
theorem specWordsDecodeAsWritten : Obligations.SpecWordsDecodeAsWritten := by
  unfold Obligations.SpecWordsDecodeAsWritten
  decide

/-! ### Result words (R84, R85) -/

/-- A KeyId's number is at most 6 (R39, R85). -/
theorem keyResultWord_le (k : KeyId) : (keyResultWord k).toNat ≤ 6 := by
  cases k <;> decide

/-- An RC6 code is zero-extended (R84). -/
theorem rc6ResultWord_toNat (code : Half) : (rc6ResultWord code).toNat = code.toNat :=
  BitVec.toNat_setWidth_of_le (by decide)

/-- Settles O10: what each operation leaves as its result. -/
theorem resultWordsOfTheOperations : Obligations.ResultWordsOfTheOperations := fun s =>
  ⟨fun ts lv => ⟨_, exec_eq (.edge ts lv) s, rfl⟩, ⟨_, exec_eq .readNec s, rfl⟩,
    ⟨_, exec_eq .readRc6 s, rc6ResultWord_toNat s.rc6Latch⟩,
    ⟨_, mapCodes s.codeTable s.necLatch s.rc6Latch, exec_eq .decode s, rfl, keyResultWord_le _⟩⟩

/-! ### The assembler (R88, R89) -/

/-- The assembler gives the words of an operation in range. -/
theorem assembleOp_of_wellFormed {op : SourceOp} (h : op.wellFormed = true) : assembleOp op = some (expandOp op) := by
  rw [assembleOp, if_pos h]

/-- EDGE's operands are in range when they fit u16 and a bit (R88). -/
theorem edge_wellFormed_iff {ts lv : Nat} : (SourceOp.edge ts lv).wellFormed = true ↔ ts ≤ 65535 ∧ lv ≤ 1 := by
  simp only [SourceOp.wellFormed, fitsBits, Bool.and_eq_true, decide_eq_true_eq]
  omega

/-- A source number that is a bit is kept. -/
theorem bitOf_toNat {n : Nat} (h : n ≤ 1) : (bitOf n).toNat = n := by
  interval_cases n <;> rfl

/-- The number of a bit stands for it. -/
@[simp] theorem bitOf_toNat_self (b : Bool) : bitOf b.toNat = b := by
  cases b <;> rfl

/-- Settles O6, by the range check. -/
theorem assemblerEncodesEdgeOrRefusesIt : Obligations.AssemblerEncodesEdgeOrRefusesIt := by
  refine fun ts lv => ⟨fun hts hlv => ⟨_, assembleOp_of_wellFormed (edge_wellFormed_iff.2 ⟨hts, hlv⟩), ?_⟩, fun h => ?_⟩
  · rw [encode_edge_toNat, bitOf_toNat hlv, BitVec.toNat_ofNat, Nat.mod_eq_of_lt (by omega)]
  · exact if_neg fun hw => by have := edge_wellFormed_iff.1 hw; omega

/-- Settles O7: word `i` is the encoding of event `i` of the waveform. -/
theorem waveExpandsSegmentBySegment : Obligations.WaveExpandsSegmentBySegment := by
  intro t0 segs hne hlv
  have hw : (SourceOp.wave t0 segs).wellFormed = true := by
    simpa [SourceOp.wellFormed, fitsBits, hne, Nat.lt_succ_iff] using hlv
  refine ⟨_, assembleOp_of_wellFormed hw, by simp [expandOp, edgeWords], fun i l d hi => ?_⟩
  refine ⟨_, BitVec.ofNat 16 (t0 + ((segs.take i).map fun seg => seg.2).sum), bitOf l, ?_, decodeWord_encode _,
    bitOf_toNat (hlv (l, d) (List.mem_of_getElem? hi)), BitVec.toNat_ofNat _ _⟩
  simp [expandOp, edgeWords, waveEvents_getElem?, hi, List.map_take, Function.comp_def]

/-! ### RC6_FRAME (R91) -/

/-- Every run of merged units is at least one unit long. -/
theorem runsFrom_pos (units : List Bool) {l : Bool} {n : Nat} (hn : 0 < n) : ∀ run ∈ runsFrom l n units, 0 < run.2 := by
  induction units generalizing l n with
  | nil => simpa [runsFrom] using hn
  | cons u rest ih =>
    rw [runsFrom]
    split_ifs
    · exact ih n.succ_pos
    · exact List.forall_mem_cons.2 ⟨hn, ih one_pos⟩

/-- The first of the runs that go on from level `l` has that level. -/
theorem runsFrom_head (units : List Bool) (l : Bool) (n : Nat) :
    ∃ m runs, runsFrom l n units = (l, m) :: runs := by
  induction units generalizing n with
  | nil => exact ⟨n, [], rfl⟩
  | cons u rest ih =>
    rw [runsFrom]
    split_ifs with hu
    · exact ih (n + 1)
    · exact ⟨n, _, rfl⟩

/-- Merging is whole: consecutive runs differ in level. -/
theorem runsFrom_isChain (units : List Bool) (l : Bool) (n : Nat) :
    (runsFrom l n units).IsChain fun r r' => r.1 ≠ r'.1 := by
  induction units generalizing l n with
  | nil => exact .singleton _
  | cons u rest ih =>
    rw [runsFrom]
    split_ifs with hu
    · exact ih l (n + 1)
    · obtain ⟨m, runs, hm⟩ := runsFrom_head rest u 1
      rw [hm]
      exact .cons_cons (Ne.symm hu) (hm ▸ ih u 1)

/-- Written out, the runs are the units they were merged of. -/
theorem flatMap_runsFrom (units : List Bool) (l : Bool) (n : Nat) :
    ((runsFrom l n units).flatMap fun run => List.replicate run.2 run.1) = List.replicate n l ++ units := by
  induction units generalizing l n with
  | nil => simp [runsFrom]
  | cons u rest ih =>
    rw [runsFrom]
    split_ifs with hu
    · simp [ih, hu, List.replicate_succ']
    · simp [ih]

/-- The unit sequence of a frame begins with a mark, from which the runs go on. -/
theorem runsOf_rc6Units (mode : BitVec 3) (toggle : Bool) (data : BitVec 16) :
    runsOf (rc6Units mode toggle data) = runsFrom false 1 (rc6Units mode toggle data).tail := rfl

/-- RC6_FRAME's operands are in range for every mode, toggle and data (R91). -/
theorem rc6Frame_wellFormed (t0 : Nat) (mode : BitVec 3) (toggle : Bool) (data : BitVec 16) (h : Nat) :
    (SourceOp.rc6Frame t0 mode.toNat toggle.toNat data.toNat h).wellFormed = true := by
  have := toggle.toNat_lt
  simp [SourceOp.wellFormed, fitsBits, mode.isLt, data.isLt, this]

/-- The assembler gives the words of an RC6 frame's events. -/
theorem assembleOp_rc6Frame (t0 : Nat) (mode : BitVec 3) (toggle : Bool) (data : BitVec 16) (h : Nat) :
    assembleOp (.rc6Frame t0 mode.toNat toggle.toNat data.toNat h) = some (edgeWords (rc6Frame t0 mode toggle data h)) := by
  rw [assembleOp_of_wellFormed (rc6Frame_wellFormed t0 mode toggle data h)]
  simp [expandOp]

/-- Settles O8, from what merging units into runs gives. -/
theorem rc6FrameMergesItsUnits : Obligations.Rc6FrameMergesItsUnits := by
  intro t0 mode toggle data h
  refine ⟨runsOf (rc6Units mode toggle data), rfl, assembleOp_rc6Frame t0 mode toggle data h, ?_, ?_, ?_⟩ <;>
    rw [runsOf_rc6Units]
  · exact runsFrom_pos _ one_pos
  · intro i r r' hr hr'
    obtain ⟨hi, rfl⟩ := List.getElem?_eq_some_iff.1 hr
    obtain ⟨hi', rfl⟩ := List.getElem?_eq_some_iff.1 hr'
    exact List.isChain_iff_getElem.1 (runsFrom_isChain _ _ _) i hi'
  · rw [flatMap_runsFrom]
    rfl

/-! ### What a run in NEC's windows does to the NEC decoder (R122 to R137) -/

section Reading
variable {ts t : Timestamp} {n : NecState} {latch : Word} {c : Word} {k : Nat}

/-- A rising edge in time in Start, the end of the leader's mark, only moves `last` (R125). -/
theorem necStep_start_rising (hp : n.phase = .start) (hd : deltaT ts n.last ≤ 200) :
    necStep ts true n latch = ({ n with last := ts }, latch) := by
  rw [necStep_in_time (hd.trans (by decide))]
  simp [necRow, necStart, falls, hp, hd]

/-- A falling edge in time in Start begins the data (R124). -/
theorem necStep_start_falling (hp : n.phase = .start) (hd : deltaT ts n.last ≤ 200) :
    necStep ts false n latch = ({ phase := .readWait, acc := 0, bitIndex := 31, last := ts }, latch) := by
  rw [necStep_in_time (hd.trans (by decide))]
  simp [necRow, necStart, falls, hp, hd]

/-- The end of a bit's mark, in time (R127). -/
theorem necStep_readWait_rising (hp : n.phase = .readWait) (hd : deltaT ts n.last ≤ 10) :
    necStep ts true n latch = ({ n with last := ts, phase := .readGet }, latch) := by
  rw [necStep_in_time (hd.trans (by decide))]
  simp [necRow, necReadWait, rises, hp, hd]

/-- The end of a bit's space, in time, stores the bit (R130, R131). -/
theorem necStep_readGet_falling (hp : n.phase = .readGet) (hd : deltaT ts n.last ≤ 30) :
    necStep ts false n latch = (necAdvance (necStore (necBit (deltaT ts n.last)) { n with last := ts }), latch) := by
  rw [necStep_in_time (hd.trans (by decide))]
  simp [necRow, necReadGet, falls, hp, hd]

/-- The end of the stop mark, in time, commits the accumulator (R134). -/
theorem necStep_stop_rising (hp : n.phase = .stop) (hd : deltaT ts n.last ≤ 10) :
    necStep ts true n latch = ({ n with last := ts, phase := .init }, n.acc) := by
  rw [necStep_in_time (hd.trans (by decide))]
  simp [necRow, necStop, rises, hp, hd]

/-- The decoder after the leader and `k` bits of code `c`, the last event at `t`: it waits for the next bit, or, with all 32 read,
for the end of the stop mark; the bits read stand in the accumulator, the first at bit 31 (R130). -/
structure NecReading (c : Word) (k : Nat) (t : Timestamp) (n : NecState) : Prop where
  phase : n.phase = if k = 32 then .stop else .readWait
  index : k < 32 → n.bitIndex.toInt = 31 - k
  acc : ∀ j : Nat, j < 32 → 32 - k ≤ j → n.acc.getLsbD j = c.getLsbD j
  last : n.last = t

/-- The acceptance windows of one bit's mark and space (R137), as `NecWindows` writes them. -/
abbrev NecBitWindow (b : Bool) (mark space : Nat) : Prop :=
  mark ≤ 10 ∧ (if b then 11 ≤ space ∧ space ≤ 30 else space ≤ 10)

/-- A space in its window gives its bit, and is in time (R131). -/
theorem necBit_of_window {b : Bool} {mark space : Nat} (h : NecBitWindow b mark space) : necBit space = b ∧ space ≤ 30 := by
  obtain ⟨-, h⟩ := h
  cases b <;> simp [necBit, NEC_ZERO_MAX] at h ⊢ <;> omega

/-- One bit more in its window is one bit more read. -/
theorem NecReading.succ (h : NecReading c k t n) (hk : k < 32) {t₁ t₂ : Timestamp} {latch₁ latch₂ : Word}
    (hw : NecBitWindow (c.getLsbD (31 - k)) (deltaT t₁ t) (deltaT t₂ t₁)) :
    NecReading c (k + 1) t₂ (necStep t₂ false (necStep t₁ true n latch₁).1 latch₂).1 := by
  obtain ⟨hphase, hindex, hacc, rfl⟩ := h
  have hi := hindex hk
  obtain ⟨hbit, hspace⟩ := necBit_of_window hw
  have hdec := toInt_dec (i := n.bitIndex) (by omega)
  rw [necStep_readWait_rising (hphase.trans (if_neg (by omega))) hw.1, necStep_readGet_falling rfl hspace, hbit, necAdvance]
  have hbits : ∀ j : Nat, j < 32 → 32 - (k + 1) ≤ j →
      (storeBit n.acc n.bitIndex.toInt (c.getLsbD (31 - k))).getLsbD j = c.getLsbD j := by
    intro j hj hkj
    rw [getLsbD_storeBit]
    split_ifs with hs
    · rw [show j = 31 - k by omega]
    · exact hacc j hj (by omega)
  split_ifs with hneg <;> simp only [necStore, hdec] at hneg
  · exact ⟨(if_pos (by omega)).symm, fun hlt => by omega, hbits, rfl⟩
  · exact ⟨(if_neg (by omega)).symm, fun _ => by simp only [necStore, hdec]; omega, hbits, rfl⟩

end Reading

section Frame
variable {s : State} {ts : Nat → Timestamp} {c : Word}

/-- The first `n` events of a run of NEC's shape (R137). -/
def necShapedPrefix (ts : Nat → Timestamp) (n : Nat) : List EdgeEvent :=
  (List.range n).map fun i => { ts := ts i, lv := decide (i % 2 = 1) }

/-- A run of NEC's shape is its first 68 events. -/
theorem necShapedEvents_eq_prefix (ts : Nat → Timestamp) : necShapedEvents ts = necShapedPrefix ts 68 := rfl

/-- One event more of the run is that event applied. -/
theorem applyEvents_necShapedPrefix_succ (s : State) (ts : Nat → Timestamp) (n : Nat) :
    s.applyEvents (necShapedPrefix ts (n + 1)) =
      (s.applyEvents (necShapedPrefix ts n)).applyEdge (ts n) (decide (n % 2 = 1)) := by
  simp [necShapedPrefix, List.range_succ, State.applyEvents_append]

/-- The leader in its windows leaves the decoder with no bit read yet (R122, R124, R125). -/
theorem necReading_leader (h0 : s.nec.phase = .init ∨ 300 < deltaT (ts 0) s.nec.last) (hw : NecWindows ts c) :
    NecReading c 0 (ts 2) (s.applyEvents (necShapedPrefix ts 3)).nec := by
  obtain ⟨hmark, hspace, -, -⟩ := hw
  have hstart : necStep (ts 0) false s.nec s.necLatch = ({ s.nec with last := ts 0, phase := .start }, s.necLatch) :=
    h0.elim (fun h => necStep_of_init h _ _ _) fun h => necStep_of_guard h _ _
  have hrise := necStep_start_rising (ts := ts 1) (n := { s.nec with last := ts 0, phase := .start })
    (latch := s.necLatch) rfl hmark
  have hfall := necStep_start_falling (ts := ts 2) (n := { s.nec with last := ts 1, phase := .start })
    (latch := s.necLatch) rfl hspace
  have hnec : (s.applyEvents (necShapedPrefix ts 3)).nec =
      { phase := .readWait, acc := 0, bitIndex := 31, last := ts 2 } := by
    simp [necShapedPrefix, List.range_succ, hstart, hrise, hfall]
  rw [hnec]
  exact ⟨rfl, fun _ => rfl, fun j hj hle => by omega, rfl⟩

/-- After the leader and `k` bits in their windows the decoder has read `k` bits. -/
theorem necReading_bits (h0 : s.nec.phase = .init ∨ 300 < deltaT (ts 0) s.nec.last) (hw : NecWindows ts c) {k : Nat}
    (hk : k ≤ 32) : NecReading c k (ts (2 * k + 2)) (s.applyEvents (necShapedPrefix ts (2 * k + 3))).nec := by
  induction k with
  | zero => exact necReading_leader h0 hw
  | succ k ih =>
    obtain ⟨-, -, hbits, -⟩ := hw
    have hbit : NecBitWindow (c.getLsbD (31 - k)) (deltaT (ts (2 * k + 3)) (ts (2 * k + 2)))
        (deltaT (ts (2 * k + 4)) (ts (2 * k + 3))) := by
      simpa [NecBitWindow, intervalBefore, Nat.add_comm, Nat.mul_comm] using hbits k (by omega)
    rw [show 2 * (k + 1) + 3 = 2 * k + 3 + 1 + 1 by ring, applyEvents_necShapedPrefix_succ, applyEvents_necShapedPrefix_succ,
      show (2 * k + 3 + 1) % 2 = 0 by omega, show (2 * k + 3) % 2 = 1 by omega]
    exact (ih (by omega)).succ (by omega) hbit

/-- A run of NEC's shape with every interval in its window commits the code, whatever the latch held (R134, R137). -/
theorem necLatch_of_necWindows (h0 : s.nec.phase = .init ∨ 300 < deltaT (ts 0) s.nec.last) (hw : NecWindows ts c) :
    (s.applyEvents (necShapedEvents ts)).necLatch = c := by
  have hread : NecReading c 32 (ts 66) (s.applyEvents (necShapedPrefix ts 67)).nec := necReading_bits h0 hw (k := 32) le_rfl
  obtain ⟨hphase, -, hacc, hlast⟩ := hread
  have hcode : (s.applyEvents (necShapedPrefix ts 67)).nec.acc = c :=
    BitVec.eq_of_getLsbD_eq fun j hj => hacc j hj (by omega)
  obtain ⟨-, -, -, hstop⟩ := hw
  rw [necShapedEvents_eq_prefix, applyEvents_necShapedPrefix_succ, State.applyEdge_necLatch,
    show decide (67 % 2 = 1) = true from rfl, necStep_stop_rising hphase (by rw [hlast]; exact hstop), hcode]

end Frame

/-! ### NEC_FRAME (R90) -/

/-- In a list of pairs laid end to end, the first of pair `k` stands at place `2k`. -/
theorem getElem?_flatMap_pair_even {α β : Type} (f g : α → β) (l : List α) (k : Nat) :
    (l.flatMap fun a => [f a, g a])[2 * k]? = l[k]?.map f := by
  induction l generalizing k with
  | nil => rfl
  | cons a l ih =>
    cases k with
    | zero => rfl
    | succ k => exact ih k

/-- In a list of pairs laid end to end, the second of pair `k` stands at place `2k + 1`. -/
theorem getElem?_flatMap_pair_odd {α β : Type} (f g : α → β) (l : List α) (k : Nat) :
    (l.flatMap fun a => [f a, g a])[2 * k + 1]? = l[k]?.map g := by
  induction l generalizing k with
  | nil => rfl
  | cons a l ih =>
    cases k with
    | zero => rfl
    | succ k => exact ih k

section NecFrame
variable (t0 : Nat) (code : Word)

/-- The durations of a NEC frame, a mark and a space at a time: the leader, the 32 bits, the stop mark (R90). -/
def necFramePairs : List (Nat × Nat) :=
  (90, 45) :: (necDataBits code).map (fun b => (6, if b then 17 else 6)) ++ [(6, 0)]

/-- A NEC frame is made of its marks and spaces. -/
theorem necFrameSegs_eq_pairs :
    necFrameSegs code = (necFramePairs code).flatMap fun p => [(false, p.1), (true, p.2)] := by
  simp only [necFrameSegs, necFramePairs, List.flatMap_append, List.flatMap_cons, List.flatMap_map]
  rfl

theorem necFramePairs_length : (necFramePairs code).length = 34 := by
  simp [necFramePairs, necDataBits]

/-- The mark and space of bit `k`. -/
theorem necFramePairs_bit {k : Nat} (hk : k < 32) :
    (necFramePairs code)[k + 1]? = some (6, if code.getLsbD (31 - k) then 17 else 6) := by
  simp [necFramePairs, necDataBits, List.getElem?_append, hk]

/-- The stop mark comes last. -/
theorem necFramePairs_stop : (necFramePairs code)[33]? = some (6, 0) := by
  simp [necFramePairs, necDataBits]

theorem necFrameSegs_length : (necFrameSegs code).length = 68 := by
  rw [necFrameSegs_eq_pairs, List.length_flatMap]
  simp [necFramePairs_length]

/-- The mark of pair `k` stands at segment `2k`. -/
theorem necFrameSegs_mark {k : Nat} {p : Nat × Nat} (hp : (necFramePairs code)[k]? = some p) :
    (necFrameSegs code)[2 * k]? = some (false, p.1) := by
  rw [necFrameSegs_eq_pairs, getElem?_flatMap_pair_even, hp]
  rfl

/-- The space of pair `k` stands at segment `2k + 1`. -/
theorem necFrameSegs_space {k : Nat} {p : Nat × Nat} (hp : (necFramePairs code)[k]? = some p) :
    (necFrameSegs code)[2 * k + 1]? = some (true, p.2) := by
  rw [necFrameSegs_eq_pairs, getElem?_flatMap_pair_odd, hp]
  rfl

/-- Marks and spaces take turns: the odd segments are spaces. -/
theorem necFrameSegs_level {i : Nat} (hi : i < 68) : ∃ d, (necFrameSegs code)[i]? = some (decide (i % 2 = 1), d) := by
  have hp : i / 2 < (necFramePairs code).length := by rw [necFramePairs_length]; omega
  have hk := List.getElem?_eq_getElem hp
  obtain h | h := Nat.mod_two_eq_zero_or_one i
  · have hm := necFrameSegs_mark code hk
    rw [show 2 * (i / 2) = i by omega] at hm
    exact ⟨_, by simpa [h] using hm⟩
  · have hs := necFrameSegs_space code hk
    rw [show 2 * (i / 2) + 1 = i by omega] at hs
    exact ⟨_, by simpa [h] using hs⟩

/-- When event `i` of a NEC frame comes: the durations before it after `t0` (R89). -/
def necFrameTime (i : Nat) : Timestamp :=
  BitVec.ofNat 16 (t0 + (((necFrameSegs code).take i).map fun seg => seg.2).sum)

/-- A NEC frame has NEC's shape (R137). -/
theorem necFrame_eq_necShapedEvents : necFrame t0 code = necShapedEvents (necFrameTime t0 code) := by
  refine List.ext_getElem? fun i => ?_
  rw [necFrame, waveEvents_getElem?]
  by_cases hi : i < 68
  · obtain ⟨d, hd⟩ := necFrameSegs_level code hi
    simp [hd, necShapedEvents, hi, necFrameTime]
  · simp [necShapedEvents, necFrameSegs_length, Nat.not_lt.1 hi]

/-- The interval after event `i` is the duration of segment `i`. -/
theorem intervalBefore_necFrameTime {i d : Nat} {lv : Bool} (hi : (necFrameSegs code)[i]? = some (lv, d)) (hd : d < 65536) :
    intervalBefore (necFrameTime t0 code) (i + 1) = d := by
  rw [intervalBefore, Nat.add_sub_cancel, necFrameTime, List.take_add_one, hi]
  simp only [Option.toList_some, List.map_append, List.map_cons, List.map_nil, List.sum_append, List.sum_singleton,
    ← Nat.add_assoc]
  exact (deltaT_add _ _).trans (Nat.mod_eq_of_lt hd)

/-- The durations of a NEC frame lie in the windows of its code (R90, R137). -/
theorem necFrame_necWindows : NecWindows (necFrameTime t0 code) code := by
  have hmark {k : Nat} {p : Nat × Nat} (hp : (necFramePairs code)[k]? = some p) (hd : p.1 < 65536) :
      intervalBefore (necFrameTime t0 code) (2 * k + 1) = p.1 :=
    intervalBefore_necFrameTime t0 code (necFrameSegs_mark code hp) hd
  have hspace {k : Nat} {p : Nat × Nat} (hp : (necFramePairs code)[k]? = some p) (hd : p.2 < 65536) :
      intervalBefore (necFrameTime t0 code) (2 * k + 1 + 1) = p.2 :=
    intervalBefore_necFrameTime t0 code (necFrameSegs_space code hp) hd
  have hleader : (necFramePairs code)[0]? = some (90, 45) := rfl
  refine ⟨by simp [hmark hleader], by simp [hspace hleader], fun k hk => ?_, by simp [hmark (necFramePairs_stop code)]⟩
  have hbit := necFramePairs_bit code hk
  rw [show 3 + 2 * k = 2 * (k + 1) + 1 by ring, show 4 + 2 * k = 2 * (k + 1) + 1 + 1 by ring, hmark hbit (by simp),
    hspace hbit (by dsimp only; split_ifs <;> decide)]
  cases code.getLsbD (31 - k) <;> simp

/-- NEC_FRAME's operand is in range for every code (R90). -/
theorem assembleOp_necFrame : assembleOp (.necFrame t0 code.toNat) = some (edgeWords (necFrame t0 code)) := by
  have hw : (SourceOp.necFrame t0 code.toNat).wellFormed = true := by simp [SourceOp.wellFormed, fitsBits, code.isLt]
  rw [assembleOp_of_wellFormed hw]
  simp [expandOp]

end NecFrame

/-- Settles O31: a NEC frame is a run of NEC's shape in the windows of its code, and such a run commits. -/
theorem necFrameCommitsItsCode : Obligations.NecFrameCommitsItsCode := by
  intro t0 code s h0
  refine ⟨?_, ?_, assembleOp_necFrame t0 code,
    ⟨necFrameTime t0 code, necFrame_eq_necShapedEvents t0 code, necFrame_necWindows t0 code⟩, ?_⟩
  · rw [necFrame, necFrameSegs, necDataBits, List.flatMap_map]
    rfl
  · rw [necFrame, waveEvents_length, necFrameSegs_length]
  · rw [necFrame_eq_necShapedEvents]
    exact necLatch_of_necWindows h0 (necFrame_necWindows t0 code)

end Sys2Proof.Machine

/-! EDGE (40_edge_event.md): both decoders on every event, Δt, the last timestamps and the guards; and the step that applies nothing. -/

namespace Sys2Proof.Machine

/-! ### Nothing applied (R108) -/

/-- Settles O12. That a step with an empty schedule is a next state at all is the model's choice (log 2). -/
theorem idleStepChangesNothing : Obligations.IdleStepChangesNothing :=
  fun _ => step_idle

/-! ### What EDGE writes (R100, R101, R103) -/

/-- EDGE field by field: each decoder's step writes that decoder and its latch, and no result is returned. -/
theorem exec_edge (ts : Timestamp) (lv : Bool) (s : State) :
    exec (.edge ts lv) s = .next { s with
      nec := (necStep ts lv s.nec s.necLatch).1, necLatch := (necStep ts lv s.nec s.necLatch).2,
      rc6 := (rc6Step ts lv s.rc6 s.rc6Latch).1, rc6Latch := (rc6Step ts lv s.rc6 s.rc6Latch).2,
      result := none } :=
  exec_eq _ s

/-- Settles O17. -/
theorem edgeRunsBothDecoders : Obligations.EdgeRunsBothDecoders :=
  exec_edge

/-- The two halves of EDGE read and write disjoint parts of the state, so they commute (R38, R101). -/
theorem State.edgeNec_edgeRc6_comm (s : State) (ts : Timestamp) (lv : Bool) :
    (s.edgeNec ts lv).edgeRc6 ts lv = (s.edgeRc6 ts lv).edgeNec ts lv := rfl

/-- Settles O18: EDGE is `applyEdge`, whose two halves commute. -/
theorem orderOfTheDecodersIsUnobservable : Obligations.OrderOfTheDecodersIsUnobservable := by
  intro ts lv s
  have hrun : exec (.edge ts lv) s = .next (((s.edgeNec ts lv).edgeRc6 ts lv).withResult none) := exec_eq _ s
  exact ⟨hrun, by rw [hrun, State.edgeNec_edgeRc6_comm]⟩

/-- Settles O21: each decoder's step leaves `ts` in its `last`, whatever its phase. -/
theorem everyEdgeOverwritesTheLastTimestamps : Obligations.EveryEdgeOverwritesTheLastTimestamps :=
  fun ts lv s => ⟨_, exec_edge ts lv s, necStep_last ts lv _ _, rc6Step_last ts lv _ _⟩

/-! ### Δt (R102) -/

/-- Δt is the integer difference modulo 65536. -/
theorem deltaT_eq_emod (ts last : Timestamp) :
    (deltaT ts last : Int) = ((ts.toNat : Int) - (last.toNat : Int)) % 65536 := by
  have := last.isLt
  rw [deltaT_eq]
  omega

/-- A timestamp `k` ticks before the last one: the gap wraps (R298). -/
theorem deltaT_sub_ofNat (last : Timestamp) {k : Nat} (h1 : 1 ≤ k) (hk : k ≤ 65535) :
    deltaT (last - BitVec.ofNat 16 k) last = 65536 - k := by
  rw [deltaT, sub_sub_cancel_left, BitVec.toNat_neg, BitVec.toNat_ofNat]
  omega

/-- A real gap of `g` ticks after any last timestamp. -/
theorem deltaT_add_ofNat (last : Timestamp) (g : Nat) : deltaT (last + BitVec.ofNat 16 g) last = g % 65536 := by
  rw [deltaT, add_sub_cancel_left, BitVec.toNat_ofNat]

/-- Settles O20, one lemma for each form of the gap; the fixed pair is computed. -/
theorem deltaIsTheGapModulo65536 : Obligations.DeltaIsTheGapModulo65536 :=
  fun ts last => ⟨deltaT_eq_emod ts last, fun _ => deltaT_sub_ofNat last, deltaT_add_ofNat last, by decide⟩

/-! ### Past the guard (R104) -/

/-- Past the guard a NEC step does not see the phase: it acts as in Init. -/
theorem necStep_eq_from_init {n : NecState} {ts : Timestamp} (h : NEC_GUARD < deltaT ts n.last) (lv : Bool) (latch : Word) :
    necStep ts lv n latch = necStep ts lv { n with phase := .init } latch := by
  rw [necStep_of_guard h, necStep_of_init rfl]

/-- Past the guard an RC6 step does not see the phase: it acts as in Init. -/
theorem rc6Step_eq_from_init {r : Rc6State} {ts : Timestamp} (h : RC6_GUARD < deltaT ts r.last) (lv : Bool) (latch : Half) :
    rc6Step ts lv r latch = rc6Step ts lv { r with phase := .init } latch := by
  rw [rc6Step_of_guard h, rc6Step_of_init rfl]

/-- Settles O22: the guarded decoder's step is its step from Init, and EDGE writes what the steps give. -/
theorem guardedEventIsHandledFromInit : Obligations.GuardedEventIsHandledFromInit := by
  intro ts lv s
  constructor <;> intro h <;> rw [exec_edge, exec_edge]
  · rw [necStep_eq_from_init h]
  · rw [rc6Step_eq_from_init h]

end Sys2Proof.Machine

/-! The NEC decoder (41_nec_decoder.md): its rows, why a short run never commits, which runs of NEC's shape commit, and, for both
decoders, rollover. -/

namespace Sys2Proof.Machine

/-! ### The rows (R121 to R135) -/

section Rows
variable {s : State} {ts : Timestamp} {lv : Bool} {n n' : NecState} {latch latch' : Word}

/-- Δt above which an event is too late for its phase (R121, R123, R126, R129, R133). In Init it is the guard's and is not read. -/
def NecPhase.limit : NecPhase → Nat
  | .init => NEC_GUARD
  | .start => NEC_START_TO
  | .readWait => NEC_MARK_TO
  | .readGet => NEC_SPACE_TO
  | .stop => NEC_STOP_TO

/-- The level after the edge a phase waits for; the other edge does not move the phase on (R122, R125, R128, R132, R135). -/
def NecPhase.awaits : NecPhase → Bool
  | .init | .start | .readGet => false
  | .readWait | .stop => true

theorem NecPhase.limit_le_guard (p : NecPhase) : p.limit ≤ NEC_GUARD := by
  cases p <;> decide

/-- A timeout within the guard leads to Init, whatever the level, and commits nothing (R123, R126, R129, R133). -/
theorem necStep_timeout (hd : n.phase.limit < deltaT ts n.last) (hg : deltaT ts n.last ≤ NEC_GUARD) :
    necStep ts lv n latch = ({ n with last := ts, phase := .init }, latch) := by
  rw [necStep_in_time hg]
  obtain ⟨p, acc, i, last⟩ := n
  cases p with
  | init => exact absurd hg (Nat.not_le.2 hd)
  | start => exact congrArg (·, latch) (if_pos hd)
  | readWait => exact congrArg (·, latch) (if_pos hd)
  | readGet => exact congrArg (·, latch) (if_pos hd)
  | stop => exact if_pos hd

/-- An event too late for its phase leads to Init, or, a falling edge past the guard, to Start; it commits nothing. -/
theorem necStep_late (hd : n.phase.limit < deltaT ts n.last) : ∃ p, (p = .init ∨ p = .start ∧ lv = false) ∧
    necStep ts lv n latch = ({ n with last := ts, phase := p }, latch) := by
  by_cases hg : deltaT ts n.last ≤ NEC_GUARD
  · exact ⟨_, .inl rfl, necStep_timeout hd hg⟩
  · refine ⟨_, ?_, necStep_of_guard (Nat.not_le.1 hg) lv latch⟩
    cases lv
    · exact .inr ⟨rfl, rfl⟩
    · exact .inl rfl

/-- An edge in time that the phase does not wait for only moves `last` (R122, R125, R128, R132, R135). -/
theorem necStep_other_edge (hd : deltaT ts n.last ≤ n.phase.limit) (hlv : lv ≠ n.phase.awaits) :
    necStep ts lv n latch = ({ n with last := ts }, latch) := by
  rw [necStep_in_time (hd.trans n.phase.limit_le_guard)]
  obtain ⟨p, acc, i, last⟩ := n
  obtain rfl : lv = !p.awaits := Bool.eq_not.2 hlv
  have hin := Nat.not_lt.2 hd
  cases p with
  | init => rfl
  | start => exact congrArg (·, latch) ((if_neg hin).trans (if_neg (by decide)))
  | readWait => exact congrArg (·, latch) ((if_neg hin).trans (if_neg (by decide)))
  | readGet => exact congrArg (·, latch) ((if_neg hin).trans (if_neg (by decide)))
  | stop => exact (if_neg hin).trans (if_neg (by decide))

/-- EDGE leaves in `nec` and `nec_latch` what the NEC step gives (R100). -/
theorem exec_edge_of_necStep (h : necStep ts lv s.nec s.necLatch = (n', latch')) :
    ∃ t, exec (.edge ts lv) s = .next t ∧ t.necLatch = latch' ∧ t.nec = n' :=
  ⟨_, exec_edge ts lv s, congrArg Prod.snd h, congrArg Prod.fst h⟩

end Rows

/-- A step handled in Init is the Init row (R121, R122). -/
theorem necStep_from_init {n : NecState} {ts : Timestamp} (h : n.phase = .init ∨ 300 < deltaT ts n.last) (lv : Bool)
    (latch : Word) : necStep ts lv n latch = ({ n with last := ts, phase := if lv then .init else .start }, latch) :=
  h.elim (fun h => necStep_of_init h ts lv latch) fun h => necStep_of_guard h lv latch

/-- An event handled in Init: a falling edge starts a frame, a rising one does not (R122). -/
theorem exec_edge_from_init {s : State} {ts : Timestamp} (h : s.nec.phase = .init ∨ 300 < deltaT ts s.nec.last) (lv : Bool) :
    ∃ t, exec (.edge ts lv) s = .next t ∧ t.necLatch = s.necLatch ∧
      t.nec = { s.nec with last := ts, phase := if lv = false then .start else .init } := by
  have hstep := necStep_from_init h lv s.necLatch
  cases lv <;> exact exec_edge_of_necStep hstep

/-- Settles O23: past the guard the step is Init's row. -/
theorem necGuardRestartsOnTheSameEvent : Obligations.NecGuardRestartsOnTheSameEvent :=
  fun _ lv _ _ hg => exec_edge_from_init (.inr hg) lv

/-- Settles O24. -/
theorem necInitRow : Obligations.NecInitRow :=
  fun _ lv _ hp => exec_edge_from_init (.inl hp) lv

/-- Settles O25: the timeout, the falling edge that begins the data, and the rising edge Start does not wait for. -/
theorem necStartRow : Obligations.NecStartRow := by
  intro ts lv s hp hg
  apply exec_edge_of_necStep
  split_ifs with hd hlv
  · exact necStep_timeout (by rwa [hp]) hg
  · rw [hlv, necStep_start_falling hp (by omega)]
  · exact necStep_other_edge (by rw [hp]; exact Nat.not_lt.1 hd) (by rw [hp]; exact hlv)

/-- Settles O26: the timeout, the rising edge that ends a mark, and the falling edge ReadWait does not wait for. -/
theorem necReadWaitRow : Obligations.NecReadWaitRow := by
  intro ts lv s hp hg
  apply exec_edge_of_necStep
  split_ifs with hd hlv
  · exact necStep_timeout (by rwa [hp]) hg
  · rw [hlv, necStep_readWait_rising hp (by omega)]
  · exact necStep_other_edge (by rw [hp]; exact Nat.not_lt.1 hd) (by rw [hp]; exact hlv)

/-- Settles O27: the timeout, and the rising edge ReadGet does not wait for. -/
theorem necReadGetTimeoutAndRisingEdge : Obligations.NecReadGetTimeoutAndRisingEdge := by
  intro ts lv s hp hg hcase
  apply exec_edge_of_necStep
  split_ifs with hd
  · exact necStep_timeout (by rwa [hp]) hg
  · have hlv : lv = true := hcase.resolve_left hd
    exact necStep_other_edge (by rw [hp]; exact Nat.not_lt.1 hd) (by rw [hp, hlv]; decide)

/-- Storing a bit in R37's range: the index counts down, and from 0 goes back to 31 as the data ends (R130). -/
theorem necAdvance_necStore {n : NecState} (h : n.Inv) (b : Bool) : necAdvance (necStore b n) =
    { n with
      acc := storeBit n.acc n.bitIndex.toInt b
      bitIndex := if n.bitIndex = 0 then 31 else n.bitIndex - 1
      phase := if n.bitIndex = 0 then .stop else .readWait } := by
  have hneg : (necStore b n).bitIndex.toInt < 0 ↔ n.bitIndex = 0 := dec_neg_iff h.1
  by_cases h0 : n.bitIndex = 0
  · rw [necAdvance, if_pos (hneg.2 h0), if_pos h0, if_pos h0]; rfl
  · rw [necAdvance, if_neg (mt hneg.1 h0), if_neg h0, if_neg h0]; rfl

/-- Settles O28: the store writes the bit at the index, and the index stays in its range. -/
theorem necReadGetStoresTheBit : Obligations.NecReadGetStoresTheBit := by
  intro ts s hinv hp hd
  have hstep := necStep_readGet_falling (latch := s.necLatch) hp hd
  rw [necAdvance_necStore (n := { s.nec with last := ts }) hinv] at hstep
  obtain ⟨t, he, hlatch, hnec⟩ := exec_edge_of_necStep hstep
  refine ⟨t, he, hlatch, by rw [hnec], fun j hj => ?_, ?_, by rw [hnec]⟩
  · rw [hnec, getLsbD_storeBit]
    simp only [hj, and_true, necBit]
  · rw [hnec, apply_ite BitVec.toInt, toInt_dec hinv.1]
    rfl

/-- Settles O29: the timeout, the rising edge that commits, and the falling edge Stop does not wait for. -/
theorem necStopRow : Obligations.NecStopRow := by
  intro ts lv s hp hg
  apply exec_edge_of_necStep
  by_cases hd : deltaT ts s.nec.last ≤ 10
  · rw [if_neg (Nat.not_lt.2 hd)]
    cases lv with
    | false => simpa using necStep_other_edge (lv := false) (by rw [hp]; exact hd) (by rw [hp]; decide)
    | true => simpa [hd] using necStep_stop_rising hp hd
  · rw [if_pos (Nat.not_le.1 hd), if_neg fun h => hd h.1]
    exact necStep_timeout (by rw [hp]; exact Nat.not_le.1 hd) hg

/-! ### Short runs never commit (R138) -/

section Short
variable {s : State} {evs : List EdgeEvent}

/-- A run with fewer events than a commit needs leaves the latch. -/
theorem State.necLatch_applyEvents_of_lt_necRank (h : NecIndexed s.nec) (hr : (evs.length : Int) < necRank s.nec) :
    (s.applyEvents evs).necLatch = s.necLatch := by
  induction evs generalizing s with
  | nil => rfl
  | cons e evs ih =>
    rw [List.length_cons, Nat.cast_add, Nat.cast_one] at hr
    obtain ⟨hstep, hlatch⟩ := necStep_rank h e.ts e.lv s.necLatch
    have hkeep : (s.applyEdge e.ts e.lv).necLatch = s.necLatch := hlatch.resolve_right (by omega)
    rw [State.applyEvents_cons, ih (necStep_keeps_indexed h _ _ _) (by rw [State.applyEdge_nec]; omega), hkeep]

/-- After an event handled in Init a commit is at least 66 events away. -/
theorem necRank_from_init {n : NecState} {ts : Timestamp} (h : n.phase = .init ∨ 300 < deltaT ts n.last) (lv : Bool)
    (latch : Word) : NecIndexed (necStep ts lv n latch).1 ∧ 66 ≤ necRank (necStep ts lv n latch).1 := by
  rw [necStep_from_init h]
  cases lv <;> simp [NecIndexed, necRank]

end Short

/-- Settles O32: the first event leads to Init or Start, from where a commit needs 66 events more. -/
theorem truncatedNecRunsNeverReachTheLatch : Obligations.TruncatedNecRunsNeverReachTheLatch := by
  intro s e evs h0 hlen
  obtain ⟨hindexed, hrank⟩ := necRank_from_init h0 e.lv s.necLatch
  have hrest : ((s.applyEdge e.ts e.lv).applyEvents evs).necLatch = (s.applyEdge e.ts e.lv).necLatch :=
    State.necLatch_applyEvents_of_lt_necRank hindexed (by rw [State.applyEdge_nec]; omega)
  rw [State.applyEvents_cons, hrest, State.applyEdge_necLatch, necStep_from_init h0]

/-! ### Which runs of NEC's shape commit (R137) -/

/-- Every interval of a run of NEC's shape is within its phase's limit: the windows of R137 without the code. -/
structure NecInTime (ts : Nat → Timestamp) : Prop where
  leaderMark : intervalBefore ts 1 ≤ 200
  leaderSpace : intervalBefore ts 2 ≤ 200
  mark : ∀ k, k < 32 → intervalBefore ts (3 + 2 * k) ≤ 10
  space : ∀ k, k < 32 → intervalBefore ts (4 + 2 * k) ≤ 30
  stop : intervalBefore ts 67 ≤ 10

/-- The code the spaces of a run spell: bit 31 - k is 1 where the space of bit k is above 10 ticks (R131, R136). -/
def necSpelledCode (ts : Nat → Timestamp) : Word :=
  BitVec.ofFnLE fun j : Fin 32 => necBit (intervalBefore ts (4 + 2 * (31 - j)))

theorem getLsbD_necSpelledCode (ts : Nat → Timestamp) {k : Nat} (hk : k < 32) :
    (necSpelledCode ts).getLsbD (31 - k) = necBit (intervalBefore ts (4 + 2 * k)) := by
  rw [necSpelledCode, BitVec.getLsbD_eq_getElem (by omega), BitVec.getElem_ofFnLE]
  simp only [show 31 - (31 - k) = k by omega]

/-- A run in time lies in the windows of the code it spells. -/
theorem NecInTime.necWindows {ts : Nat → Timestamp} (h : NecInTime ts) : NecWindows ts (necSpelledCode ts) := by
  refine ⟨h.leaderMark, h.leaderSpace, fun k hk => ⟨h.mark k hk, ?_⟩, h.stop⟩
  rw [getLsbD_necSpelledCode ts hk, necBit]
  simp only [decide_eq_true_eq]
  split_ifs with hbit
  · exact ⟨hbit, h.space k hk⟩
  · exact Nat.not_lt.1 hbit

section Levels
variable {ts : Timestamp} {n : NecState} {latch : Word}

/-- A rising edge does not lead to a phase that waits out a mark (R124, R130). -/
theorem necStep_rising_phase :
    (necStep ts true n latch).1.phase ≠ .readWait ∧ (necStep ts true n latch).1.phase ≠ .stop := by
  by_cases hd : deltaT ts n.last ≤ n.phase.limit
  · cases hp : n.phase with
    | init | start | readGet =>
      rw [necStep_other_edge hd (by rw [hp]; decide)]
      simp [hp]
    | readWait =>
      rw [necStep_readWait_rising hp (by rwa [hp] at hd)]
      simp
    | stop =>
      rw [necStep_stop_rising hp (by rwa [hp] at hd)]
      simp
  · obtain ⟨p, rfl | ⟨rfl, -⟩, he⟩ := necStep_late (lv := true) (latch := latch) (Nat.not_le.1 hd) <;> simp [he]

/-- A falling edge does not lead to ReadGet, the phase that waits out a space (R127, R130). -/
theorem necStep_falling_phase : (necStep ts false n latch).1.phase ≠ .readGet := by
  by_cases hd : deltaT ts n.last ≤ n.phase.limit
  · cases hp : n.phase with
    | init =>
      rw [necStep_of_init hp]
      simp
    | start =>
      rw [necStep_start_falling hp (by rwa [hp] at hd)]
      simp
    | readWait | stop =>
      rw [necStep_other_edge hd (by rw [hp]; decide)]
      simp [hp]
    | readGet =>
      rw [necStep_readGet_falling hp (by rwa [hp] at hd), necAdvance]
      split_ifs <;> simp
  · obtain ⟨p, rfl | ⟨rfl, -⟩, he⟩ := necStep_late (lv := false) (latch := latch) (Nat.not_le.1 hd) <;> simp [he]

/-- An event too late for its phase loses the frame: a commit is again at least 66 events away, 67 after a rising edge. -/
theorem necRank_late (hd : n.phase.limit < deltaT ts n.last) (lv : Bool) (latch : Word) :
    66 ≤ necRank (necStep ts lv n latch).1 ∧ (lv = true → necRank (necStep ts lv n latch).1 = 67) := by
  obtain ⟨p, rfl | ⟨rfl, rfl⟩, he⟩ := necStep_late (lv := lv) (latch := latch) hd <;> simp [he, necRank]

end Levels

section Phases
variable {n : NecState}

/-- From 2 to 65 events away from a commit the decoder waits out a bit's mark, unless it waits out a space. -/
theorem phase_readWait_of_necRank (hlo : 2 ≤ necRank n) (hhi : necRank n ≤ 65) (hp : n.phase ≠ .readGet) :
    n.phase = .readWait := by
  rw [necRank] at hlo hhi
  cases hq : n.phase <;> simp_all

/-- At most 65 events away from a commit the decoder waits out a space, unless it waits out a mark. -/
theorem phase_readGet_of_necRank (hhi : necRank n ≤ 65) (hp : n.phase ≠ .readWait ∧ n.phase ≠ .stop) :
    n.phase = .readGet := by
  rw [necRank] at hhi
  cases hq : n.phase <;> simp_all

end Phases

/-- The state after the first `n` events of a run of NEC's shape. -/
def State.afterShaped (s : State) (ts : Nat → Timestamp) (n : Nat) : State := s.applyEvents (necShapedPrefix ts n)

section Shaped
variable {s : State} {ts : Nat → Timestamp} {n k : Nat}

theorem State.applyEvents_necShapedEvents : s.applyEvents (necShapedEvents ts) = s.afterShaped ts 68 := rfl

theorem State.applyEvents_take_necShapedEvents (hn : n ≤ 68) :
    s.applyEvents ((necShapedEvents ts).take n) = s.afterShaped ts n := by
  rw [necShapedEvents, ← List.map_take, List.take_range, Nat.min_eq_left hn, afterShaped, necShapedPrefix]

@[simp] theorem State.afterShaped_zero : s.afterShaped ts 0 = s := rfl

theorem State.afterShaped_succ :
    s.afterShaped ts (n + 1) = (s.afterShaped ts n).applyEdge (ts n) (decide (n % 2 = 1)) :=
  applyEvents_necShapedPrefix_succ s ts n

theorem State.afterShaped_succ_nec : (s.afterShaped ts (n + 1)).nec =
    (necStep (ts n) (decide (n % 2 = 1)) (s.afterShaped ts n).nec (s.afterShaped ts n).necLatch).1 := by
  rw [afterShaped_succ, applyEdge_nec]

theorem State.afterShaped_succ_necLatch : (s.afterShaped ts (n + 1)).necLatch =
    (necStep (ts n) (decide (n % 2 = 1)) (s.afterShaped ts n).nec (s.afterShaped ts n).necLatch).2 := by
  rw [afterShaped_succ, applyEdge_necLatch]

/-- Event `n + 1` is measured from event `n` (R103). -/
theorem State.afterShaped_succ_last : (s.afterShaped ts (n + 1)).nec.last = ts n := by
  rw [afterShaped_succ_nec, necStep_last]

/-- After an odd event the decoder does not wait out a mark (R137). -/
theorem State.afterShaped_phase_of_odd (hn : n % 2 = 1) :
    (s.afterShaped ts (n + 1)).nec.phase ≠ .readWait ∧ (s.afterShaped ts (n + 1)).nec.phase ≠ .stop := by
  rw [afterShaped_succ_nec, decide_eq_true hn]
  exact necStep_rising_phase

/-- After an even event the decoder does not wait out a space (R137). -/
theorem State.afterShaped_phase_of_even (hn : n % 2 = 0) : (s.afterShaped ts (n + 1)).nec.phase ≠ .readGet := by
  rw [afterShaped_succ_nec, decide_eq_false (by omega)]
  exact necStep_falling_phase

section Handled
variable (h0 : s.nec.phase = .init ∨ 300 < deltaT (ts 0) s.nec.last)
include h0

/-- Event 0 leads to Start and writes no latch (R122). -/
theorem State.afterShaped_one : (s.afterShaped ts 1).nec.phase = .start ∧ (s.afterShaped ts 1).necLatch = s.necLatch := by
  rw [afterShaped_succ_nec, afterShaped_succ_necLatch, afterShaped_zero, necStep_from_init h0]
  exact ⟨rfl, rfl⟩

/-- After `n + 1` events a commit is at least `66 - n` events away. -/
theorem State.afterShaped_necRank_ge (n : Nat) :
    NecIndexed (s.afterShaped ts (n + 1)).nec ∧ 66 - (n : Int) ≤ necRank (s.afterShaped ts (n + 1)).nec := by
  induction n with
  | zero =>
    rw [afterShaped_succ_nec]
    exact necRank_from_init h0 _ _
  | succ n ih =>
    obtain ⟨hindexed, hrank⟩ := ih
    have hstep := (necStep_rank hindexed (ts (n + 1)) (decide ((n + 1) % 2 = 1)) (s.afterShaped ts (n + 1)).necLatch).1
    rw [afterShaped_succ_nec]
    exact ⟨necStep_keeps_indexed hindexed _ _ _, by push_cast; omega⟩

/-- No event before the stop edge, event 67, writes the latch. -/
theorem State.afterShaped_necLatch (hn : n ≤ 67) : (s.afterShaped ts n).necLatch = s.necLatch := by
  induction n with
  | zero => rfl
  | succ n ih =>
    cases n with
    | zero => exact (afterShaped_one h0).2
    | succ n =>
      rw [← ih (by omega), afterShaped_succ_necLatch]
      by_contra hchange
      obtain ⟨-, hstop, -, hodd, -⟩ := necStep_latch_change hchange
      have hrank := (afterShaped_necRank_ge h0 n).2
      rw [necRank, hstop] at hrank
      simp only [decide_eq_true_eq] at hodd hrank
      omega

/-- In the windows of a code a run of NEC's shape passes Start, ReadWait and Stop and ends in Init (R137). -/
theorem State.afterShaped_phases {c : Word} (hw : NecWindows ts c) :
    (s.afterShaped ts 1).nec.phase = .start ∧ (s.afterShaped ts 3).nec.phase = .readWait ∧
      (s.afterShaped ts 67).nec.phase = .stop ∧ (s.afterShaped ts 68).nec.phase = .init := by
  have hstop : (s.afterShaped ts 67).nec.phase = .stop := (necReading_bits h0 hw (k := 32) le_rfl).phase
  obtain ⟨-, -, -, hd⟩ := id hw
  refine ⟨(afterShaped_one h0).1, (necReading_leader h0 hw).phase, hstop, ?_⟩
  rw [afterShaped_succ_nec, show decide (67 % 2 = 1) = true from rfl,
    necStep_stop_rising hstop (by rw [afterShaped_succ_last]; exact hd)]

section Commit
variable (hne : (s.afterShaped ts 68).necLatch ≠ s.necLatch)
include hne

/-- In a run that commits, a commit is after `n` events no further away than the `68 - n` events left. -/
theorem State.afterShaped_necRank_le (h1 : 1 ≤ n) (hn : n ≤ 67) : necRank (s.afterShaped ts n).nec ≤ 68 - n := by
  by_contra hlt
  obtain ⟨m, rfl⟩ := Nat.exists_eq_add_of_le' h1
  have hsplit : s.afterShaped ts 68 = (s.afterShaped ts (m + 1)).applyEvents ((necShapedEvents ts).drop (m + 1)) := by
    rw [← applyEvents_take_necShapedEvents (n := m + 1) (by omega), ← applyEvents_append, List.take_append_drop,
      applyEvents_necShapedEvents]
  have hlen : ((necShapedEvents ts).drop (m + 1)).length = 68 - (m + 1) := by simp [necShapedEvents]
  have hkeep := necLatch_applyEvents_of_lt_necRank (evs := (necShapedEvents ts).drop (m + 1))
    (afterShaped_necRank_ge h0 m).1 (by rw [hlen]; omega)
  exact hne (by rw [hsplit, hkeep, afterShaped_necLatch h0 hn])

/-- In a run that commits, no event before the stop edge is too late for its phase. -/
theorem State.afterShaped_in_time (h1 : 1 ≤ n) (hn : n ≤ 66) {p : NecPhase} (hp : (s.afterShaped ts n).nec.phase = p) :
    intervalBefore ts n ≤ p.limit := by
  by_contra hlate
  obtain ⟨m, rfl⟩ := Nat.exists_eq_add_of_le' h1
  have hd : (s.afterShaped ts (m + 1)).nec.phase.limit < deltaT (ts (m + 1)) (s.afterShaped ts (m + 1)).nec.last := by
    rw [afterShaped_succ_last, hp]
    exact Nat.not_le.1 hlate
  have hle := afterShaped_necRank_le h0 hne (n := m + 1 + 1) (by omega) (by omega)
  rw [afterShaped_succ_nec] at hle
  obtain ⟨hlost, hrise⟩ := necRank_late hd (decide ((m + 1) % 2 = 1)) (s.afterShaped ts (m + 1)).necLatch
  obtain rfl | hm := Nat.eq_zero_or_pos m
  · rw [hrise rfl] at hle
    norm_num at hle
  · push_cast at hle
    omega

/-- In a run that commits, bit `k`'s mark is waited out in ReadWait. -/
theorem State.afterShaped_readWait (hk : k < 32) : (s.afterShaped ts (3 + 2 * k)).nec.phase = .readWait := by
  rw [show 3 + 2 * k = 2 + 2 * k + 1 by ring]
  have hge := (afterShaped_necRank_ge h0 (2 + 2 * k)).2
  have hle := afterShaped_necRank_le h0 hne (n := 2 + 2 * k + 1) (by omega) (by omega)
  push_cast at hge hle
  exact phase_readWait_of_necRank (by omega) (by omega) (afterShaped_phase_of_even (by omega))

/-- In a run that commits, bit `k`'s space is waited out in ReadGet. -/
theorem State.afterShaped_readGet (hk : k < 32) : (s.afterShaped ts (4 + 2 * k)).nec.phase = .readGet := by
  rw [show 4 + 2 * k = 3 + 2 * k + 1 by ring]
  have hle := afterShaped_necRank_le h0 hne (n := 3 + 2 * k + 1) (by omega) (by omega)
  push_cast at hle
  exact phase_readGet_of_necRank (by omega) (afterShaped_phase_of_odd (by omega))

/-- In a run that commits, every interval is in time. -/
theorem State.necInTime_of_commit : NecInTime ts := by
  have hone := (afterShaped_one h0).1
  have hmark : intervalBefore ts 1 ≤ 200 := afterShaped_in_time h0 hne le_rfl (by omega) hone
  have htwo : (s.afterShaped ts 2).nec.phase = .start := by
    rw [afterShaped_succ_nec, show decide (1 % 2 = 1) = true from rfl,
      necStep_start_rising hone (by rw [afterShaped_succ_last]; exact hmark)]
    exact hone
  refine ⟨hmark, afterShaped_in_time h0 hne (by omega) (by omega) htwo, fun k hk => ?_, fun k hk => ?_, ?_⟩
  · exact afterShaped_in_time h0 hne (by omega) (by omega) (afterShaped_readWait h0 hne hk)
  · exact afterShaped_in_time h0 hne (by omega) (by omega) (afterShaped_readGet h0 hne hk)
  · rw [← afterShaped_necLatch h0 le_rfl, afterShaped_succ_necLatch] at hne
    obtain ⟨-, -, -, -, hd⟩ := necStep_latch_change hne
    rw [afterShaped_succ_last] at hd
    exact hd

end Commit

end Handled

end Shaped

/-- Settles O30. In its windows the run commits its code; a run that commits is in time at every event, since an event too late
leaves too few events for a commit, and so lies in the windows of the code its spaces spell. -/
theorem necFrameCommitsIffInTheWindows : Obligations.NecFrameCommitsIffInTheWindows := by
  intro s ts c h0
  refine ⟨⟨fun hcommit => ?_, fun hw v => necLatch_of_necWindows (s := { s with necLatch := v }) h0 hw⟩, fun hw => ?_⟩
  · have hne : (State.afterShaped { s with necLatch := ~~~c } ts 68).necLatch ≠ ~~~c := by
      rw [← State.applyEvents_necShapedEvents, hcommit]
      simp
    have hw := (State.necInTime_of_commit (s := { s with necLatch := ~~~c }) h0 hne).necWindows
    rwa [← hcommit 0, necLatch_of_necWindows (s := { s with necLatch := 0 }) h0 hw]
  · rw [State.applyEvents_take_necShapedEvents (by omega), State.applyEvents_take_necShapedEvents (by omega),
      State.applyEvents_take_necShapedEvents (by omega), State.applyEvents_necShapedEvents]
    exact State.afterShaped_phases h0 hw

/-! ### Rollover (R140) -/

section Rollover
variable {ts c : Timestamp} {lv : Bool} {dt : Nat}

/-- The NEC decoder with its last timestamp moved by `c`. -/
abbrev NecState.shift (c : Timestamp) (n : NecState) : NecState := { n with last := n.last + c }

/-- The RC6 decoder with its last timestamp moved by `c`. -/
abbrev Rc6State.shift (c : Timestamp) (r : Rc6State) : Rc6State := { r with last := r.last + c }

theorem necAdvance_shift (n : NecState) : necAdvance (n.shift c) = (necAdvance n).shift c := by
  simp only [necAdvance]
  split_ifs <;> rfl

/-- A row of the NEC decoder carries the last timestamp along: it reads only Δt. -/
theorem necRow_shift (dt : Nat) (lv : Bool) (n : NecState) (latch : Word) :
    necRow dt lv (n.shift c) latch = ((necRow dt lv n latch).1.shift c, (necRow dt lv n latch).2) := by
  obtain ⟨p, acc, i, last⟩ := n
  cases p with
  | init => simp only [necRow, necInit, NecState.shift]; split_ifs <;> rfl
  | start => simp only [necRow, necStart, NecState.shift]; split_ifs <;> rfl
  | readWait => simp only [necRow, necReadWait, NecState.shift]; split_ifs <;> rfl
  | readGet =>
    simp only [necRow, necReadGet]
    split_ifs
    · rfl
    · exact congrArg (·, latch) (necAdvance_shift (necStore (necBit dt) ⟨.readGet, acc, i, last⟩))
    · rfl
  | stop => simp only [necRow, necStop, NecState.shift]; split_ifs <;> rfl

theorem rc6CountField_shift (r : Rc6State) : rc6CountField (r.shift c) = (rc6CountField r).shift c := by
  simp only [rc6CountField]
  split_ifs <;> rfl

theorem rc6ReadFieldWait_shift (r : Rc6State) : rc6ReadFieldWait dt (r.shift c) = (rc6ReadFieldWait dt r).shift c := by
  simp only [rc6ReadFieldWait, rc6CountField_shift]
  split_ifs <;> rfl

theorem rc6Commit_shift (r : Rc6State) (latch : Half) :
    rc6Commit (r.shift c) latch = ((rc6Commit r latch).1.shift c, (rc6Commit r latch).2) := by
  simp only [rc6Commit]
  split_ifs <;> rfl

theorem rc6Get_shift (r : Rc6State) (latch : Half) :
    rc6Get dt lv (r.shift c) latch = ((rc6Get dt lv r latch).1.shift c, (rc6Get dt lv r latch).2) := by
  simp only [rc6Get]
  split_ifs
  · rfl
  · rfl
  · exact rc6Commit_shift (rc6Store lv r) latch

/-- A row of the RC6 decoder carries the last timestamp along: it reads only Δt. -/
theorem rc6Row_shift (dt : Nat) (lv : Bool) (r : Rc6State) (latch : Half) :
    rc6Row dt lv (r.shift c) latch = ((rc6Row dt lv r latch).1.shift c, (rc6Row dt lv r latch).2) := by
  obtain ⟨p, acc, i, f, m, last⟩ := r
  cases p with
  | init => simp only [rc6Row, rc6Init, Rc6State.shift]; split_ifs <;> rfl
  | start1 => simp only [rc6Row, rc6Start1, Rc6State.shift]; split_ifs <;> rfl
  | start2 => simp only [rc6Row, rc6Start2, Rc6State.shift]; split_ifs <;> rfl
  | start3 => simp only [rc6Row, rc6Start3, Rc6State.shift]; split_ifs <;> rfl
  | readFieldWait => exact congrArg (·, latch) (rc6ReadFieldWait_shift _)
  | readToggle1 => simp only [rc6Row, rc6ReadToggle1, Rc6State.shift]; split_ifs <;> rfl
  | readToggle2 => simp only [rc6Row, rc6ReadToggle2_eq, Rc6State.shift]; split_ifs <;> rfl
  | readGet => exact rc6Get_shift _ latch

/-- A NEC step with every timestamp moved is the NEC step, moved. -/
theorem necStep_shift (n : NecState) (latch : Word) :
    necStep (ts + c) lv (n.shift c) latch = ((necStep ts lv n latch).1.shift c, (necStep ts lv n latch).2) := by
  have hguard : necGuard (deltaT ts n.last) { n with last := ts + c } =
      (necGuard (deltaT ts n.last) { n with last := ts }).shift c := by
    simp only [necGuard]; split_ifs <;> rfl
  have hdelta : deltaT (ts + c) (n.shift c).last = deltaT ts n.last := deltaT_shift ts n.last c
  rw [necStep, hdelta]
  exact (congrArg (necRow _ lv · latch) hguard).trans (necRow_shift _ _ _ _)

/-- An RC6 step with every timestamp moved is the RC6 step, moved. -/
theorem rc6Step_shift (r : Rc6State) (latch : Half) :
    rc6Step (ts + c) lv (r.shift c) latch = ((rc6Step ts lv r latch).1.shift c, (rc6Step ts lv r latch).2) := by
  have hguard : rc6Guard (deltaT ts r.last) { r with last := ts + c } =
      (rc6Guard (deltaT ts r.last) { r with last := ts }).shift c := by
    simp only [rc6Guard]; split_ifs <;> rfl
  have hdelta : deltaT (ts + c) (r.shift c).last = deltaT ts r.last := deltaT_shift ts r.last c
  rw [rc6Step, hdelta]
  exact (congrArg (rc6Row _ lv · latch) hguard).trans (rc6Row_shift _ _ _ _)

variable {s s' : State}

/-- A moved run on a moved NEC decoder leads to the moved state and the same latch. -/
theorem State.applyEvents_nec_shift (hn : s'.nec = s.nec.shift c) (hl : s'.necLatch = s.necLatch) (evs : List EdgeEvent) :
    (s'.applyEvents (shiftEvents c evs)).nec = (s.applyEvents evs).nec.shift c ∧
      (s'.applyEvents (shiftEvents c evs)).necLatch = (s.applyEvents evs).necLatch := by
  induction evs generalizing s s' with
  | nil => exact ⟨hn, hl⟩
  | cons e evs ih =>
    exact ih (by rw [applyEdge_nec, applyEdge_nec, hn, hl, necStep_shift])
      (by rw [applyEdge_necLatch, applyEdge_necLatch, hn, hl, necStep_shift])

/-- A moved run on a moved RC6 decoder leads to the moved state and the same latch. -/
theorem State.applyEvents_rc6_shift (hr : s'.rc6 = s.rc6.shift c) (hl : s'.rc6Latch = s.rc6Latch) (evs : List EdgeEvent) :
    (s'.applyEvents (shiftEvents c evs)).rc6 = (s.applyEvents evs).rc6.shift c ∧
      (s'.applyEvents (shiftEvents c evs)).rc6Latch = (s.applyEvents evs).rc6Latch := by
  induction evs generalizing s s' with
  | nil => exact ⟨hr, hl⟩
  | cons e evs ih =>
    exact ih (by rw [applyEdge_rc6, applyEdge_rc6, hr, hl, rc6Step_shift])
      (by rw [applyEdge_rc6Latch, applyEdge_rc6Latch, hr, hl, rc6Step_shift])

end Rollover

/-- An RC6 step handled in Init is the Init row (R161, R162). -/
theorem rc6Step_from_init {r : Rc6State} {ts : Timestamp} (h : r.phase = .init ∨ 100 < deltaT ts r.last) (lv : Bool)
    (latch : Half) : rc6Step ts lv r latch = ({ r with last := ts, phase := if lv then .init else .start1 }, latch) :=
  h.elim (fun h => rc6Step_of_init h ts lv latch) fun h => rc6Step_of_guard h lv latch

/-- Settles O33: handled in Init, the first event leads to moved states, and every later step carries the move along. -/
theorem rolloverIsExact : Obligations.RolloverIsExact := by
  intro s c e evs
  refine ⟨fun h => ?_, fun h => ?_⟩
  · have hfirst := necStep_from_init (h.imp_right And.left) e.lv s.necLatch
    have hmoved := necStep_from_init (h.imp_right And.right) e.lv s.necLatch
    refine State.applyEvents_nec_shift (s := s.applyEdge e.ts e.lv) (s' := s.applyEdge (e.ts + c) e.lv) ?_ ?_ evs
    · rw [State.applyEdge_nec, State.applyEdge_nec, hfirst, hmoved]
    · rw [State.applyEdge_necLatch, State.applyEdge_necLatch, hfirst, hmoved]
  · have hfirst := rc6Step_from_init (h.imp_right And.left) e.lv s.rc6Latch
    have hmoved := rc6Step_from_init (h.imp_right And.right) e.lv s.rc6Latch
    refine State.applyEvents_rc6_shift (s := s.applyEdge e.ts e.lv) (s' := s.applyEdge (e.ts + c) e.lv) ?_ ?_ evs
    · rw [State.applyEdge_rc6, State.applyEdge_rc6, hfirst, hmoved]
    · rw [State.applyEdge_rc6Latch, State.applyEdge_rc6Latch, hfirst, hmoved]

end Sys2Proof.Machine

/-! The RC6 decoder (42_rc6_decoder.md): its rows, why a short run never commits, and which RC6 frames at a half-bit of 4 ticks
commit. -/

namespace Sys2Proof.Machine

/-! ### The rows (R161 to R183) -/

section Rows
variable {s : State} {ts : Timestamp} {lv : Bool} {r r' : Rc6State} {latch latch' : Half}

/-- EDGE leaves in `rc6` and `rc6_latch` what the RC6 step gives (R100). -/
theorem exec_edge_of_rc6Step (h : rc6Step ts lv s.rc6 s.rc6Latch = (r', latch')) :
    ∃ t, exec (.edge ts lv) s = .next t ∧ t.rc6Latch = latch' ∧ t.rc6 = r' :=
  ⟨_, exec_edge ts lv s, congrArg Prod.snd h, congrArg Prod.fst h⟩

/-- A step handled in Init, as the obligations write it (R161, R162). -/
theorem rc6Step_from_init_eq (h : r.phase = .init ∨ 100 < deltaT ts r.last) :
    rc6Step ts lv r latch = ({ r with last := ts, phase := if lv = false then .start1 else .init }, latch) := by
  rw [rc6Step_from_init h]
  cases lv <;> rfl

/-- Start1: the leader's mark ends (R163, R164). -/
theorem rc6Step_start1 (hp : r.phase = .start1) (hg : deltaT ts r.last ≤ 100) : rc6Step ts lv r latch =
    (if 30 < deltaT ts r.last then { r with last := ts, phase := .init }
     else if lv = true then { r with last := ts, phase := .start2 }
     else { r with last := ts }, latch) := by
  rw [rc6Step_in_time hg, rc6Row, hp]
  rfl

/-- Start2: the leader's space ends (R165, R166). -/
theorem rc6Step_start2 (hp : r.phase = .start2) (hg : deltaT ts r.last ≤ 100) : rc6Step ts lv r latch =
    (if 15 < deltaT ts r.last then { r with last := ts, phase := .init }
     else if lv = false then { r with last := ts, phase := .start3 }
     else { r with last := ts }, latch) := by
  rw [rc6Step_in_time hg, rc6Row, hp]
  cases lv <;> rfl

/-- Start3: the middle of the start bit begins the fields (R167, R168). -/
theorem rc6Step_start3 (hp : r.phase = .start3) (hg : deltaT ts r.last ≤ 100) : rc6Step ts lv r latch =
    (if 5 < deltaT ts r.last then { r with last := ts, phase := .init }
     else if lv = true then { r with last := ts, phase := .readFieldWait, mid := false }
     else { r with last := ts }, latch) := by
  rw [rc6Step_in_time hg, rc6Row, hp]
  rfl

/-- ReadFieldWait: the timeout, the middle of a field bit, and an edge between two bits (R169 to R171). -/
theorem rc6Step_readFieldWait (hp : r.phase = .readFieldWait) (hg : deltaT ts r.last ≤ 100) : rc6Step ts lv r latch =
    (if 10 < deltaT ts r.last then { r with last := ts, phase := .init, field := 0 }
     else if 5 < deltaT ts r.last ∨ r.mid = true then rc6CountField { r with last := ts }
     else { r with last := ts, mid := true }, latch) := by
  rw [rc6Step_in_time hg, rc6Row, hp]
  simp only [rc6ReadFieldWait, countsFieldBit, RC6_FIELD_TO, RC6_HALF, Bool.or_eq_true, decide_eq_true_eq]

/-- The third field bit begins the toggle bit, with the count back at 0 (R170). -/
theorem rc6CountField_eq (r : Rc6State) : rc6CountField r =
    if r.field = 2 then { r with phase := .readToggle1, field := 0, mid := false }
    else { r with field := r.field + 1, mid := false } := by
  have hthird : r.field + 1 = 3 ↔ r.field = 2 := add_left_inj (1 : BitVec 8) (c := 2)
  simp only [rc6CountField, hthird]

/-- ReadToggle1: the timeout, an edge before the toggle bit, and the middle of the toggle bit (R173 to R175). -/
theorem rc6Step_readToggle1 (hp : r.phase = .readToggle1) (hg : deltaT ts r.last ≤ 100) : rc6Step ts lv r latch =
    (if 30 < deltaT ts r.last then { r with last := ts, phase := .init }
     else if deltaT ts r.last ≤ 5 ∧ r.mid = false then { r with last := ts, mid := true }
     else { r with last := ts, phase := .readToggle2 }, latch) := by
  rw [rc6Step_in_time hg, rc6Row, hp]
  simp only [rc6ReadToggle1, isToggleHalf, RC6_T1_TO, RC6_HALF, Bool.and_eq_true, decide_eq_true_eq, Bool.not_eq_true']

/-- ReadToggle2: the toggle bit ends, at 10 ticks with the first data bit at once (R176 to R178). -/
theorem rc6Step_readToggle2 (hp : r.phase = .readToggle2) (hg : deltaT ts r.last ≤ 100) : rc6Step ts lv r latch =
    (if deltaT ts r.last < 10 then rc6BeginData { r with last := ts }
     else if deltaT ts r.last = 10 then rc6Store lv (rc6BeginData { r with last := ts })
     else { rc6BeginData { r with last := ts } with phase := .init }, latch) := by
  rw [rc6Step_in_time hg, rc6Row, hp]
  exact rc6ReadToggle2_eq _ _ _ _

/-- ReadGet past its timeout (R180). -/
theorem rc6Step_readGet_late (hp : r.phase = .readGet) (hg : deltaT ts r.last ≤ 100) (hd : 10 < deltaT ts r.last) :
    rc6Step ts lv r latch = ({ r with last := ts, phase := .init }, latch) := by
  rw [rc6Step_in_time hg, rc6Row, hp]
  exact if_pos hd

/-- ReadGet in time: an edge between two data bits, or a data bit (R181 to R183). -/
theorem rc6Step_readGet (hp : r.phase = .readGet) (hd : deltaT ts r.last ≤ 10) : rc6Step ts lv r latch =
    if deltaT ts r.last ≤ 5 ∧ r.mid = false ∧ r.bitIndex ≠ 0 then ({ r with last := ts, mid := true }, latch)
    else rc6Commit (rc6Store lv { r with last := ts }) latch := by
  rw [rc6Step_in_time (hd.trans (by decide)), rc6Row, hp]
  have hin : ¬ RC6_GET_TO < deltaT ts r.last := Nat.not_lt.2 hd
  simp only [rc6Get, hin, if_false, isDataHalf, RC6_HALF, Bool.and_eq_true, decide_eq_true_eq, Bool.not_eq_true', and_assoc]

/-- Storing a data bit: the sixteenth commits the accumulator with its bit in it and leads to Init (R182, R183). -/
theorem rc6Commit_rc6Store (lv : Bool) (r : Rc6State) (latch : Half) : rc6Commit (rc6Store lv r) latch =
    if r.bitIndex = 15 then ({ r with phase := .init, acc := 0, bitIndex := 0, mid := false }, (rc6Store lv r).acc)
    else (rc6Store lv r, latch) := by
  have hlast : (rc6Store lv r).bitIndex = 16 ↔ r.bitIndex = 15 := add_left_inj (1 : BitVec 8) (c := 15)
  simp only [rc6Commit, hlast]
  rfl

/-- A store writes bit `15 - bit_index` and no other (R182). -/
theorem getLsbD_acc_rc6Store (hi : r.bitIndex.toNat ≤ 15) {j : Nat} (hj : j < 16) : (rc6Store lv r).acc.getLsbD j =
    if j = 15 - r.bitIndex.toNat then lv else r.acc.getLsbD j := by
  have hbit : ((j : Int) = 15 - (r.bitIndex.toNat : Int) ∧ j < 16) ↔ j = 15 - r.bitIndex.toNat := by
    rw [and_iff_left hj]
    omega
  rw [rc6Store, getLsbD_storeBit]
  exact if_congr hbit rfl rfl

end Rows

/-- Settles O34: past the guard the step is Init's row. -/
theorem rc6GuardRestartsOnTheSameEvent : Obligations.Rc6GuardRestartsOnTheSameEvent :=
  fun _ _ _ _ hg => exec_edge_of_rc6Step (rc6Step_from_init_eq (.inr hg))

/-- Settles O35: one row for each leader phase. -/
theorem rc6LeaderRows : Obligations.Rc6LeaderRows := by
  intro ts lv s
  refine ⟨_, exec_edge ts lv s, fun hp => ?_, fun hp hg => ?_, fun hp hg => ?_, fun hp hg => ?_⟩ <;> dsimp only
  · rw [rc6Step_from_init_eq (.inl hp)]; exact ⟨rfl, rfl⟩
  · rw [rc6Step_start1 hp hg]; exact ⟨rfl, rfl⟩
  · rw [rc6Step_start2 hp hg]; exact ⟨rfl, rfl⟩
  · rw [rc6Step_start3 hp hg]; exact ⟨rfl, rfl⟩

/-- Settles O36. The count's own test for the third bit is on the new count. -/
theorem rc6ReadFieldWaitRow : Obligations.Rc6ReadFieldWaitRow := by
  intro ts lv s _ hp hg
  apply exec_edge_of_rc6Step
  rw [rc6Step_readFieldWait hp hg, rc6CountField_eq]

/-- Settles O37. -/
theorem rc6ReadToggle1Row : Obligations.Rc6ReadToggle1Row :=
  fun _ _ _ hp hg => exec_edge_of_rc6Step (rc6Step_readToggle1 hp hg)

/-- Settles O38: the first data bit, stored at once, is bit 15 of a cleared accumulator. -/
theorem rc6ReadToggle2Row : Obligations.Rc6ReadToggle2Row := by
  intro ts lv s hp hg
  refine ⟨by simp [toggleEnd, RC6_T2_SPLIT], exec_edge_of_rc6Step ?_⟩
  have hfirst (r : Rc6State) : rc6Store lv (rc6BeginData r) =
      { r with phase := .readGet, bitIndex := 1, acc := if lv then 0x8000 else 0, mid := false } := by
    have hacc : storeBit (0 : Half) 15 lv = if lv then 0x8000 else 0 := by cases lv <;> decide
    simpa [rc6Store, rc6BeginData] using hacc
  rw [rc6Step_readToggle2 hp hg, hfirst]
  rfl

/-- Settles O39: the timeout, or an edge between two data bits. -/
theorem rc6ReadGetTimeoutAndHalfBit : Obligations.Rc6ReadGetTimeoutAndHalfBit := by
  intro ts lv s hp hg hcase
  apply exec_edge_of_rc6Step
  split_ifs with hd
  · exact rc6Step_readGet_late hp hg hd
  · rw [rc6Step_readGet hp (Nat.not_lt.1 hd), if_pos (hcase.resolve_left hd)]

/-- Settles O40: every other event in time is a store, and the sixteenth store a commit. -/
theorem rc6ReadGetStoresAndCommits : Obligations.Rc6ReadGetStoresAndCommits := by
  intro ts lv s hinv hp hd hfull
  have hstep := rc6Step_readGet (lv := lv) (latch := s.rc6Latch) hp hd
  rw [if_neg hfull, rc6Commit_rc6Store] at hstep
  obtain ⟨t, he, hlatch, hrc6⟩ := exec_edge_of_rc6Step hstep
  refine ⟨t, (rc6Store lv { s.rc6 with last := ts }).acc, he, fun j hj => getLsbD_acc_rc6Store hinv.1 hj, ?_, ?_⟩
  · rw [hlatch]; exact apply_ite Prod.snd _ _ _
  · rw [hrc6]; exact apply_ite Prod.fst _ _ _

/-! ### Short runs never commit (R186, R187) -/

/-- A run with fewer events than a commit needs leaves the latch. -/
theorem State.rc6Latch_applyEvents_of_lt_rc6Rank {s : State} {evs : List EdgeEvent} (h : s.rc6.Inv)
    (hr : evs.length < rc6Rank s.rc6) : (s.applyEvents evs).rc6Latch = s.rc6Latch := by
  induction evs generalizing s with
  | nil => rfl
  | cons e evs ih =>
    rw [List.length_cons] at hr
    obtain ⟨hstep, hlatch⟩ := rc6Step_rank h e.ts e.lv s.rc6Latch
    have hkeep : (s.applyEdge e.ts e.lv).rc6Latch = s.rc6Latch := hlatch.resolve_right (by omega)
    rw [State.applyEvents_cons, ih (rc6Step_keeps_inv h _ _ _) (by rw [State.applyEdge_rc6]; omega), hkeep]

/-- Settles O41: in Init a commit is 24 events away, less the stale field count. -/
theorem truncatedRc6RunsNeverReachTheLatch : Obligations.TruncatedRc6RunsNeverReachTheLatch := by
  intro s evs hinv hp hlen
  have hrank : rc6Rank s.rc6 = 24 - s.rc6.field.toNat := by simp only [rc6Rank, hp]
  exact State.rc6Latch_applyEvents_of_lt_rc6Rank hinv (by omega)

/-! ### A level sequence in units of 4 ticks (R89, R91) -/

section UnitRun
variable {l b : Bool} {ts : Timestamp} {t d : Nat} {us : List Bool} {r : Rc6State} {latch : Half} {y : Rc6State × Half}

/-- The part of the state that the RC6 decoder reads and writes (R38). -/
def State.rc6Part (s : State) : Rc6State × Half := (s.rc6, s.rc6Latch)

/-- An RC6 step at time `t`, taken modulo 65536 (R89). -/
def rc6StepAt (t : Nat) (lv : Bool) (x : Rc6State × Half) : Rc6State × Half :=
  rc6Step (BitVec.ofNat 16 t) lv x.1 x.2

@[simp] theorem rc6StepAt_mk (t : Nat) (lv : Bool) (r : Rc6State) (latch : Half) :
    rc6StepAt t lv (r, latch) = rc6Step (BitVec.ofNat 16 t) lv r latch := rfl

/-- What a level sequence in units of 4 ticks does to the RC6 decoder and its latch, where the level before it is `l` and its
first unit begins at `t`: a step wherever the level changes. -/
def rc6UnitRun (l : Bool) (t : Nat) : List Bool → Rc6State × Half → Rc6State × Half
  | [], x => x
  | u :: us, x => rc6UnitRun u (t + 4) us (if u = l then x else rc6StepAt t u x)

/-- The events of merged runs are the changes of level. -/
theorem State.rc6Part_applyEvents_runsFrom (us : List Bool) (s : State) (t n : Nat) (l : Bool) :
    (s.applyEvents (waveEvents t ((runsFrom l n us).map fun run => (run.1, run.2 * 4)))).rc6Part =
      rc6UnitRun l (t + n * 4) us (rc6StepAt t l s.rc6Part) := by
  induction us generalizing s t n l with
  | nil => rfl
  | cons u us ih =>
    rw [runsFrom, rc6UnitRun]
    split_ifs with hu
    · rw [hu, ih, Nat.succ_mul, Nat.add_assoc]
    · exact ih (s.applyEdge (BitVec.ofNat 16 t) l) (t + n * 4) 1 u

/-- An RC6 frame is its level sequence, on a line that is high before it. -/
theorem State.rc6Part_applyEvents_rc6Frame (s : State) (t0 : Nat) (mode : BitVec 3) (toggle : Bool) (data : BitVec 16) :
    (s.applyEvents (rc6Frame t0 mode toggle data 4)).rc6Part =
      rc6UnitRun true t0 (rc6Units mode toggle data) s.rc6Part :=
  State.rc6Part_applyEvents_runsFrom (rc6Units mode toggle data).tail s t0 1 false

/-- Δt since a last timestamp `d` ticks ago. -/
theorem deltaT_of_last {last : Timestamp} (hl : last = BitVec.ofNat 16 t) (hd : d < 65536) :
    deltaT (BitVec.ofNat 16 (t + d)) last = d := by
  rw [hl, deltaT_add, Nat.mod_eq_of_lt hd]

/-- A bit changes the level in its middle, and where it begins if the level before it is its own. -/
theorem rc6UnitRun_bit (x : Rc6State × Half) : rc6UnitRun l t (rc6BitUnits b ++ us) x =
    rc6UnitRun b (t + 8) us (rc6StepAt (t + 4) b (if b = l then rc6StepAt t (!b) x else x)) := by
  cases b <;> cases l <;> rfl

/-- The toggle bit does so with its middle two units in. -/
theorem rc6UnitRun_toggle (x : Rc6State × Half) : rc6UnitRun l t (rc6ToggleUnits b ++ us) x =
    rc6UnitRun b (t + 16) us (rc6StepAt (t + 8) b (if b = l then rc6StepAt t (!b) x else x)) := by
  cases b <;> cases l <;> rfl

/-- The leader and the start bit lead from Init to the fields (R162 to R168). -/
theorem rc6UnitRun_leader (hp : r.phase = .init) :
    rc6UnitRun true t ([false, false, false, false, false, false, true, true] ++ rc6BitUnits true ++ us) (r, latch) =
      rc6UnitRun true (t + 40) us
        ({ r with phase := .readFieldWait, mid := false, last := BitVec.ofNat 16 (t + 36) }, latch) := by
  have hinit := rc6Step_of_init hp (BitVec.ofNat 16 t) false latch
  have hstart1 := rc6Step_start1 (ts := BitVec.ofNat 16 (t + 24)) (lv := true) (latch := latch)
    (r := { r with last := BitVec.ofNat 16 t, phase := .start1 }) rfl
  have hstart2 := rc6Step_start2 (ts := BitVec.ofNat 16 (t + 24 + 8)) (lv := false) (latch := latch)
    (r := { r with last := BitVec.ofNat 16 (t + 24), phase := .start2 }) rfl
  have hstart3 := rc6Step_start3 (ts := BitVec.ofNat 16 (t + 32 + 4)) (lv := true) (latch := latch)
    (r := { r with last := BitVec.ofNat 16 (t + 32), phase := .start3 }) rfl
  simp only [deltaT_add] at hstart1 hstart2 hstart3
  simp [rc6UnitRun, rc6BitUnits, hinit, hstart1, hstart2, hstart3]

/-- A bit after an edge 4 ticks ago has one effect `y`, whether an edge stands where it begins, which sets the flag, or not: the
edge in its middle comes after 4 ticks with the flag set, or after 8. -/
theorem rc6UnitRun_bit_of_last (hl : r.last = BitVec.ofNat 16 t)
    (hhalf : ∀ ts lv, deltaT ts r.last = 4 → rc6Step ts lv r latch = ({ r with last := ts, mid := true }, latch))
    (hfull : ∀ last m, deltaT (BitVec.ofNat 16 (t + 8)) last = 4 ∧ m = true ∨ deltaT (BitVec.ofNat 16 (t + 8)) last = 8 →
      rc6Step (BitVec.ofNat 16 (t + 8)) b { r with last := last, mid := m } latch = y) :
    rc6UnitRun l (t + 4) (rc6BitUnits b ++ us) (r, latch) = rc6UnitRun b (t + 12) us y := by
  rw [rc6UnitRun_bit]
  split_ifs
  · have hbegin : rc6StepAt (t + 4) (!b) (r, latch) = _ := hhalf _ _ (deltaT_of_last hl (by decide))
    have hmiddle := hfull _ true (.inl ⟨deltaT_of_last (t := t + 4) (d := 4) rfl (by decide), rfl⟩)
    rw [hbegin]
    exact congrArg (rc6UnitRun b (t + 12) us) hmiddle
  · have hmiddle := hfull r.last r.mid (.inr (deltaT_of_last hl (by decide)))
    exact congrArg (rc6UnitRun b (t + 12) us) hmiddle

/-- The edge in the middle of a field bit counts it (R170). -/
theorem rc6Step_middle_of_fieldBit (hp : r.phase = .readFieldWait)
    (hd : deltaT ts r.last = 4 ∧ r.mid = true ∨ deltaT ts r.last = 8) :
    rc6Step ts b r latch = (rc6CountField { r with last := ts }, latch) := by
  rw [rc6Step_readFieldWait hp (by omega), if_neg (by omega), if_pos (hd.symm.imp (by omega) And.right)]

/-- A field bit is counted, whether or not an edge stands where it begins (R170, R171). -/
theorem rc6UnitRun_fieldBit (hp : r.phase = .readFieldWait) (hm : r.mid = false) (hl : r.last = BitVec.ofNat 16 t) :
    rc6UnitRun l (t + 4) (rc6BitUnits b ++ us) (r, latch) =
      rc6UnitRun b (t + 12) us (rc6CountField { r with last := BitVec.ofNat 16 (t + 8) }, latch) := by
  refine rc6UnitRun_bit_of_last hl (fun ts lv hd => ?_) fun last m hd =>
    rc6Step_middle_of_fieldBit (r := { r with last := last, mid := m }) hp hd
  rw [rc6Step_readFieldWait hp (by omega), if_neg (by omega), if_neg (by simp [hd, hm])]

/-- Three field bits lead to ReadToggle1 (R170). -/
theorem rc6UnitRun_fieldBits (hp : r.phase = .readFieldWait) (hm : r.mid = false) (hl : r.last = BitVec.ofNat 16 t)
    (hf : r.field = 0) (b₂ b₁ b₀ : Bool) :
    rc6UnitRun l (t + 4) (rc6BitUnits b₂ ++ (rc6BitUnits b₁ ++ (rc6BitUnits b₀ ++ us))) (r, latch) =
      rc6UnitRun b₀ (t + 28) us ({ r with phase := .readToggle1, last := BitVec.ofNat 16 (t + 24) }, latch) := by
  have h₂ : rc6CountField { r with last := BitVec.ofNat 16 (t + 8) } =
      { r with field := 1, last := BitVec.ofNat 16 (t + 8) } := by simp [rc6CountField_eq, hf, hm]
  have h₁ : rc6CountField { r with field := 1, last := BitVec.ofNat 16 (t + 16) } =
      { r with field := 2, last := BitVec.ofNat 16 (t + 16) } := by simp [rc6CountField_eq, hm]
  have h₀ : rc6CountField { r with field := 2, last := BitVec.ofNat 16 (t + 24) } =
      { r with phase := .readToggle1, last := BitVec.ofNat 16 (t + 24) } := by simp [rc6CountField_eq, hf, hm]
  rw [rc6UnitRun_fieldBit hp hm hl, h₂,
    rc6UnitRun_fieldBit (t := t + 8) (r := { r with field := 1, last := BitVec.ofNat 16 (t + 8) }) hp hm rfl, h₁,
    rc6UnitRun_fieldBit (t := t + 16) (r := { r with field := 2, last := BitVec.ofNat 16 (t + 16) }) hp hm rfl, h₀]

/-- The edge in the middle of a data bit stores it (R182). -/
theorem rc6Step_middle_of_dataBit (hp : r.phase = .readGet)
    (hd : deltaT ts r.last = 4 ∧ r.mid = true ∨ deltaT ts r.last = 8) :
    rc6Step ts b r latch = rc6Commit (rc6Store b { r with last := ts }) latch := by
  rw [rc6Step_readGet hp (by omega), if_neg]
  rintro ⟨h5, hm, -⟩
  obtain ⟨-, hset⟩ | h8 := hd
  · exact absurd hset (by simp [hm])
  · omega

/-- A data bit after the first is stored, whether or not an edge stands where it begins (R181 to R183). -/
theorem rc6UnitRun_dataBit (hp : r.phase = .readGet) (hm : r.mid = false) (hi : r.bitIndex ≠ 0)
    (hl : r.last = BitVec.ofNat 16 t) :
    rc6UnitRun l (t + 4) (rc6BitUnits b ++ us) (r, latch) =
      rc6UnitRun b (t + 12) us (rc6Commit (rc6Store b { r with last := BitVec.ofNat 16 (t + 8) }) latch) := by
  refine rc6UnitRun_bit_of_last hl (fun ts lv hd => ?_) fun last m hd =>
    rc6Step_middle_of_dataBit (r := { r with last := last, mid := m }) hp hd
  rw [rc6Step_readGet hp (by omega), if_pos ⟨by omega, hm, hi⟩]

/-- The edge in the middle of the toggle bit leads to ReadToggle2 (R175). -/
theorem rc6Step_middle_of_toggleBit (hp : r.phase = .readToggle1) (hd : deltaT ts r.last = 8 ∨ deltaT ts r.last = 12) :
    rc6Step ts b r latch = ({ r with last := ts, phase := .readToggle2 }, latch) := by
  rw [rc6Step_readToggle1 hp (by omega), if_neg (by omega), if_neg (by omega)]

/-- The toggle bit leads from ReadToggle1 to ReadToggle2; the flag tells whether an edge stands where it begins (R174, R175). -/
theorem rc6UnitRun_toggleBit (hp : r.phase = .readToggle1) (hm : r.mid = false) (hl : r.last = BitVec.ofNat 16 t) :
    rc6UnitRun l (t + 4) (rc6ToggleUnits b ++ us) (r, latch) = rc6UnitRun b (t + 20) us
      ({ r with phase := .readToggle2, mid := decide (b = l), last := BitVec.ofNat 16 (t + 12) }, latch) := by
  rw [rc6UnitRun_toggle]
  split_ifs with hb
  · have hbegin : rc6StepAt (t + 4) (!b) (r, latch) = ({ r with last := BitVec.ofNat 16 (t + 4), mid := true }, latch) := by
      have hd : deltaT (BitVec.ofNat 16 (t + 4)) r.last = 4 := deltaT_of_last hl (by decide)
      rw [rc6StepAt_mk, rc6Step_readToggle1 hp (by omega), if_neg (by omega), if_pos ⟨by omega, hm⟩]
    have hd : deltaT (BitVec.ofNat 16 (t + 12)) (BitVec.ofNat 16 (t + 4)) = 8 :=
      deltaT_of_last (t := t + 4) (d := 8) rfl (by decide)
    have hmiddle := rc6Step_middle_of_toggleBit (b := b) (latch := latch)
      (r := { r with last := BitVec.ofNat 16 (t + 4), mid := true }) hp (.inl hd)
    rw [hbegin, decide_eq_true hb]
    exact congrArg (rc6UnitRun b (t + 20) us) hmiddle
  · have hd : deltaT (BitVec.ofNat 16 (t + 12)) r.last = 12 := deltaT_of_last hl (by decide)
    have hmiddle := rc6Step_middle_of_toggleBit (b := b) (latch := latch) hp (.inr hd)
    rw [decide_eq_false hb, ← hm]
    exact congrArg (rc6UnitRun b (t + 20) us) hmiddle

/-- A first data bit equal to the toggle bit is stored: an edge stands where it begins, and ends the toggle bit (R177, R182). -/
theorem rc6UnitRun_firstBit_same (hp : r.phase = .readToggle2) (hl : r.last = BitVec.ofNat 16 t) :
    rc6UnitRun b (t + 8) (rc6BitUnits b ++ us) (r, latch) =
      rc6UnitRun b (t + 16) us (rc6Store b (rc6BeginData { r with last := BitVec.ofNat 16 (t + 12) }), latch) := by
  have hd : deltaT (BitVec.ofNat 16 (t + 8)) r.last = 8 := deltaT_of_last hl (by decide)
  have hbegin : rc6StepAt (t + 8) (!b) (r, latch) = (rc6BeginData { r with last := BitVec.ofNat 16 (t + 8) }, latch) := by
    rw [rc6StepAt_mk, rc6Step_readToggle2 hp (by omega), if_pos (by omega)]
  have hd' : deltaT (BitVec.ofNat 16 (t + 12)) (BitVec.ofNat 16 (t + 8)) = 4 :=
    deltaT_of_last (t := t + 8) (d := 4) rfl (by decide)
  have hmiddle : rc6StepAt (t + 12) b (rc6BeginData { r with last := BitVec.ofNat 16 (t + 8) }, latch) =
      (rc6Store b (rc6BeginData { r with last := BitVec.ofNat 16 (t + 12) }), latch) := by
    have hget := rc6Step_readGet (r := rc6BeginData { r with last := BitVec.ofNat 16 (t + 8) }) (lv := b) (latch := latch) rfl
      (hd'.trans_le (by decide))
    rw [rc6StepAt_mk, hget, if_neg fun h => h.2.2 rfl]
    exact rc6Commit_first b { r with last := BitVec.ofNat 16 (t + 12) } latch
  rw [rc6UnitRun_bit, if_pos rfl, hbegin]
  exact congrArg (rc6UnitRun b (t + 16) us) hmiddle

/-- A first data bit other than the toggle bit ends the frame: its only edge comes 12 ticks after the toggle bit's (R178). -/
theorem rc6UnitRun_firstBit_other (hp : r.phase = .readToggle2) (hl : r.last = BitVec.ofNat 16 t) (hb : b ≠ l) :
    rc6UnitRun l (t + 8) (rc6BitUnits b ++ us) (r, latch) =
      rc6UnitRun b (t + 16) us ({ rc6BeginData { r with last := BitVec.ofNat 16 (t + 12) } with phase := .init }, latch) := by
  have hd : deltaT (BitVec.ofNat 16 (t + 12)) r.last = 12 := deltaT_of_last hl (by decide)
  have hmiddle : rc6StepAt (t + 12) b (r, latch) =
      ({ rc6BeginData { r with last := BitVec.ofNat 16 (t + 12) } with phase := .init }, latch) := by
    rw [rc6StepAt_mk, rc6Step_readToggle2 hp (by omega), if_neg (by omega), if_neg (by omega)]
  rw [rc6UnitRun_bit, if_neg hb]
  exact congrArg (rc6UnitRun b (t + 16) us) hmiddle

end UnitRun

/-! ### A frame up to its data (R162 to R175) -/

/-- The level sequence of the data bits that follow the first `k`, and of the last unit (R91). -/
def rc6DataUnitsFrom (data : Half) (k n : Nat) : List Bool :=
  ((List.range' k n).map fun i => data.getLsbD (15 - i)).flatMap rc6BitUnits ++ [true]

theorem rc6DataUnitsFrom_succ (data : Half) (k n : Nat) : rc6DataUnitsFrom data k (n + 1) =
    rc6BitUnits (data.getLsbD (15 - k)) ++ rc6DataUnitsFrom data (k + 1) n := by
  simp [rc6DataUnitsFrom, List.range'_succ]

theorem rc6DataUnitsFrom_length (data : Half) (k n : Nat) : (rc6DataUnitsFrom data k n).length = 2 * n + 1 := by
  have hbit (b : Bool) : (rc6BitUnits b).length = 2 := by cases b <;> rfl
  induction n generalizing k with
  | zero => rfl
  | succ n ih => rw [rc6DataUnitsFrom_succ, List.length_append, hbit, ih]; omega

/-- A frame is its leader and start bit, three field bits, the toggle bit, and the data (R91). -/
theorem rc6Units_eq (mode : BitVec 3) (toggle : Bool) (data : Half) : rc6Units mode toggle data =
    [false, false, false, false, false, false, true, true] ++ rc6BitUnits true ++
      (rc6BitUnits (mode.getLsbD 2) ++ (rc6BitUnits (mode.getLsbD 1) ++ (rc6BitUnits (mode.getLsbD 0) ++
        (rc6ToggleUnits toggle ++ rc6DataUnitsFrom data 0 16)))) := by
  simp [rc6Units, rc6ModeBits, rc6DataBits, rc6DataUnitsFrom, List.range_eq_range']

/-- From Init with no stale count, a frame brings the decoder to ReadToggle2 before its data, whatever its mode (R162 to R175). -/
theorem rc6UnitRun_rc6Units {r : Rc6State} (hp : r.phase = .init) (hf : r.field = 0) (t0 : Nat) (mode : BitVec 3)
    (toggle : Bool) (data latch : Half) : ∃ r', r'.phase = .readToggle2 ∧ r'.field = 0 ∧ r'.last = BitVec.ofNat 16 (t0 + 72) ∧
      rc6UnitRun true t0 (rc6Units mode toggle data) (r, latch) =
        rc6UnitRun toggle (t0 + 72 + 8) (rc6DataUnitsFrom data 0 16) (r', latch) := by
  refine ⟨{ r with phase := .readToggle2, mid := decide (toggle = mode.getLsbD 0), last := BitVec.ofNat 16 (t0 + 72) },
    rfl, hf, rfl, ?_⟩
  have hfields := rc6UnitRun_fieldBits (t := t0 + 36) (l := true) (latch := latch)
    (us := rc6ToggleUnits toggle ++ rc6DataUnitsFrom data 0 16) (r := { r with
      phase := .readFieldWait, mid := false, last := BitVec.ofNat 16 (t0 + 36) }) rfl rfl rfl hf
    (mode.getLsbD 2) (mode.getLsbD 1) (mode.getLsbD 0)
  have htoggle := rc6UnitRun_toggleBit (t := t0 + 60) (l := mode.getLsbD 0) (b := toggle) (latch := latch)
    (us := rc6DataUnitsFrom data 0 16)
    (r := { r with phase := .readToggle1, mid := false, last := BitVec.ofNat 16 (t0 + 60) }) rfl rfl rfl
  rw [rc6Units_eq, rc6UnitRun_leader hp]
  exact hfields.trans htoggle

/-! ### The committing frame (R185) -/

section Reading
variable {data latch : Half} {k t t' : Nat} {r : Rc6State} {l : Bool}

/-- The decoder with `k` data bits read, the last event at `t`: the bits read stand in the accumulator, the first at bit 15, and
the flag is clear (R182). -/
structure Rc6Reading (data : Half) (k t : Nat) (r : Rc6State) : Prop where
  phase : r.phase = .readGet
  index : r.bitIndex.toNat = k
  acc : ∀ j < 16, 16 - k ≤ j → r.acc.getLsbD j = data.getLsbD j
  mid : r.mid = false
  last : r.last = BitVec.ofNat 16 t

/-- Storing the next bit of the data makes the accumulator agree with the data one bit further down. -/
theorem getLsbD_rc6Store_data (hi : r.bitIndex.toNat = k) (hk : k ≤ 15)
    (hacc : ∀ j < 16, 16 - k ≤ j → r.acc.getLsbD j = data.getLsbD j) {j : Nat} (hj : j < 16) (hkj : 15 - k ≤ j) :
    (rc6Store (data.getLsbD (15 - k)) r).acc.getLsbD j = data.getLsbD j := by
  rw [getLsbD_acc_rc6Store (hi.trans_le hk) hj, hi]
  split_ifs with h
  · rw [h]
  · exact hacc j hj (by omega)

/-- A decoder that begins its data has the first bit read once it is stored. -/
theorem rc6Reading_first (hl : r.last = BitVec.ofNat 16 t) :
    Rc6Reading data 1 t (rc6Store (data.getLsbD 15) (rc6BeginData r)) where
  phase := rfl
  index := rfl
  acc _ hj hle := getLsbD_rc6Store_data (k := 0) (r := rc6BeginData r) rfl (Nat.zero_le 15)
    (fun _ hi hge => absurd hi (Nat.not_lt.2 hge)) hj hle
  mid := rfl
  last := hl

/-- Storing one bit more is one bit more read. -/
theorem Rc6Reading.store (h : Rc6Reading data k t r) (hk : k < 15) :
    Rc6Reading data (k + 1) t' (rc6Store (data.getLsbD (15 - k)) { r with last := BitVec.ofNat 16 t' }) where
  phase := h.phase
  index := (toNat_inc (by rw [h.index]; omega)).trans (congrArg (· + 1) h.index)
  acc _ hj hle := getLsbD_rc6Store_data (r := { r with last := BitVec.ofNat 16 t' }) h.index hk.le h.acc hj (by omega)
  mid := rfl
  last := rfl

/-- In Init the last unit of a frame, a space, begins nothing (R162). -/
theorem rc6UnitRun_rest (hp : r.phase = .init) :
    (rc6UnitRun l t [true] (r, latch)).2 = latch ∧ (rc6UnitRun l t [true] (r, latch)).1.phase = .init := by
  cases l
  · have hstep := rc6Step_of_init hp (BitVec.ofNat 16 t) true latch
    exact ⟨congrArg Prod.snd hstep, congrArg (·.1.phase) hstep⟩
  · exact ⟨rfl, hp⟩

/-- The next data bit is stored, and the sixteenth commits (R182, R183). -/
theorem rc6UnitRun_nextBit {n : Nat} (h : Rc6Reading data k t r) (hk : 1 ≤ k) :
    rc6UnitRun l (t + 4) (rc6DataUnitsFrom data k (n + 1)) (r, latch) =
      rc6UnitRun (data.getLsbD (15 - k)) (t + 12) (rc6DataUnitsFrom data (k + 1) n)
        (rc6Commit (rc6Store (data.getLsbD (15 - k)) { r with last := BitVec.ofNat 16 (t + 8) }) latch) := by
  have hi : r.bitIndex ≠ 0 := fun h0 => by
    have hk0 : k = 0 := h.index.symm.trans (congrArg BitVec.toNat h0)
    omega
  rw [rc6DataUnitsFrom_succ, rc6UnitRun_dataBit h.phase h.mid hi h.last]

/-- Once a data bit is read, the rest of the frame commits the data, whatever the latch held (R183). -/
theorem rc6UnitRun_data {n : Nat} (h : Rc6Reading data k t r) (hk : 1 ≤ k) (hn : k + n = 15) :
    (rc6UnitRun l (t + 4) (rc6DataUnitsFrom data k (n + 1)) (r, latch)).2 = data ∧
      (rc6UnitRun l (t + 4) (rc6DataUnitsFrom data k (n + 1)) (r, latch)).1.phase = .init := by
  induction n generalizing k t r l with
  | zero =>
    obtain rfl : k = 15 := hn
    have hlast : r.bitIndex = 15 := BitVec.eq_of_toNat_eq h.index
    have hdata : (rc6Store (data.getLsbD (15 - 15)) { r with last := BitVec.ofNat 16 (t + 8) }).acc = data :=
      BitVec.eq_of_getLsbD_eq fun j hj =>
        getLsbD_rc6Store_data (r := { r with last := BitVec.ofNat 16 (t + 8) }) h.index le_rfl h.acc hj (Nat.zero_le j)
    rw [rc6UnitRun_nextBit h hk, rc6Commit_rc6Store, if_pos hlast, hdata]
    exact rc6UnitRun_rest rfl
  | succ n ih =>
    have hmore : r.bitIndex ≠ 15 := fun h15 => by
      have hk15 : k = 15 := h.index.symm.trans (congrArg BitVec.toNat h15)
      omega
    rw [rc6UnitRun_nextBit h hk, rc6Commit_rc6Store, if_neg hmore]
    exact ih (t := t + 8) (h.store (by omega)) (by omega) (by omega)

end Reading

/-- Settles O42: a first data bit equal to the toggle bit is read, and the other fifteen after it. -/
theorem rc6FrameWithMatchingToggleCommits : Obligations.Rc6FrameWithMatchingToggleCommits := by
  intro t0 mode data s hp hf
  obtain ⟨r', hp', -, hl', hrun⟩ := rc6UnitRun_rc6Units hp hf t0 mode (data.getLsbD 15) data s.rc6Latch
  have hframe := State.rc6Part_applyEvents_rc6Frame s t0 mode (data.getLsbD 15) data
  rw [State.rc6Part, State.rc6Part, hrun, rc6DataUnitsFrom_succ, rc6UnitRun_firstBit_same hp' hl'] at hframe
  obtain ⟨hdata, hphase⟩ := rc6UnitRun_data (k := 1) (n := 14) (l := data.getLsbD 15) (latch := s.rc6Latch)
    (rc6Reading_first (data := data) (t := t0 + 72 + 12) (r := { r' with last := BitVec.ofNat 16 (t0 + 72 + 12) }) rfl)
    le_rfl rfl
  exact ⟨(congrArg Prod.snd hframe).trans hdata, (congrArg (·.1.phase) hframe).trans hphase⟩

/-! ### The dropped frame (90_conflicts.md C2) -/

section Dropped
variable {ts : Timestamp} {lv l : Bool} {t g : Nat} {r : Rc6State} {latch : Half}

/-- How many half-bits of 4 ticks lie at least between the last event and a commit, where every interval is a whole number of
them: ReadToggle2 then never stores a bit, and a field or data bit after the first takes two. -/
def rc6HalfBits (r : Rc6State) : Nat :=
  match r.phase with
  | .init => 44 - 2 * r.field.toNat
  | .start1 => 43 - 2 * r.field.toNat
  | .start2 => 42 - 2 * r.field.toNat
  | .start3 => 41 - 2 * r.field.toNat
  | .readFieldWait => 40 - 2 * r.field.toNat - r.mid.toNat
  | .readToggle1 => 34 - r.mid.toNat
  | .readToggle2 => 32
  | .readGet => 32 - max 1 (2 * r.bitIndex.toNat + r.mid.toNat)

/-- No phase is further from a commit than Init. -/
theorem rc6HalfBits_le (h : r.Inv) : rc6HalfBits r ≤ 44 - 2 * r.field.toNat := by
  have hf := h.2
  rw [rc6HalfBits]
  split <;> omega

/-- An edge handled in Init takes one step of the leader at most. -/
theorem rc6HalfBits_from_init (ts : Timestamp) (lv : Bool) (r : Rc6State) : 44 - 2 * r.field.toNat ≤
    rc6HalfBits { r with last := ts, phase := if lv = false then .start1 else .init } + 1 := by
  cases lv <;> simp only [rc6HalfBits, if_true, Bool.true_eq_false, if_false] <;> omega

/-- A data bit takes two half-bits, one of which the flag may stand for; the first takes one. -/
theorem rc6HalfBits_store (hp : r.phase = .readGet) (hi : r.bitIndex.toNat ≤ 15) (hg : 1 ≤ g)
    (hbit : r.bitIndex.toNat ≠ 0 → 2 ≤ g + r.mid.toNat) :
    rc6HalfBits r ≤ rc6HalfBits (rc6Commit (rc6Store lv { r with last := ts }) latch).1 + g ∧
      ((rc6Commit (rc6Store lv { r with last := ts }) latch).2 = latch ∨ rc6HalfBits r ≤ g) := by
  have hinc := toNat_inc (i := r.bitIndex) (by omega)
  have hr : rc6HalfBits r = 32 - max 1 (2 * r.bitIndex.toNat + r.mid.toNat) := by simp only [rc6HalfBits, hp]
  rw [rc6Commit_rc6Store]
  split_ifs with h15
  · have hlast : r.bitIndex.toNat = 15 := congrArg BitVec.toNat h15
    have hmissing : rc6HalfBits r ≤ g := by omega
    exact ⟨Nat.le_add_left_of_le hmissing, .inr hmissing⟩
  · have hstore : rc6HalfBits (rc6Store lv { r with last := ts }) = 32 - max 1 (2 * (r.bitIndex.toNat + 1)) := by
      simp only [rc6HalfBits, rc6Store, hp, hinc, Bool.toNat_false, Nat.add_zero]
    exact ⟨by dsimp only; omega, .inl rfl⟩

/-- A step `g` half-bits after the last event brings a commit nearer by at most `g` half-bits, and the latch changes only when no
more were missing. -/
theorem rc6Step_rc6HalfBits (h : r.Inv) (hg : 1 ≤ g) (hd : deltaT ts r.last = 4 * g) :
    rc6HalfBits r ≤ rc6HalfBits (rc6Step ts lv r latch).1 + g ∧ ((rc6Step ts lv r latch).2 = latch ∨ rc6HalfBits r ≤ g) := by
  have hle := rc6HalfBits_le h
  obtain ⟨hi, hf⟩ := h
  by_cases hinit : r.phase = .init ∨ 100 < deltaT ts r.last
  · have hedge := rc6HalfBits_from_init ts lv r
    rw [rc6Step_from_init_eq hinit]
    exact ⟨by dsimp only; omega, .inl rfl⟩
  obtain ⟨hp, hin⟩ := not_or.1 hinit
  replace hin := Nat.not_lt.1 hin
  have hmid := r.mid.toNat_le
  have hbit (hfull : ¬ (deltaT ts r.last ≤ 5 ∧ r.mid = false)) : 2 ≤ g + r.mid.toNat := by
    obtain h5 | hm := not_and_or.1 hfull
    · omega
    · rw [Bool.eq_true_of_not_eq_false hm, Bool.toNat_true]; omega
  cases hp : r.phase with
  | init => contradiction
  | start1 =>
    rw [rc6Step_start1 hp hin]
    refine ⟨?_, .inl rfl⟩
    split_ifs <;> simp only [rc6HalfBits, hp] <;> omega
  | start2 =>
    rw [rc6Step_start2 hp hin]
    refine ⟨?_, .inl rfl⟩
    split_ifs <;> simp only [rc6HalfBits, hp] <;> omega
  | start3 =>
    rw [rc6Step_start3 hp hin]
    refine ⟨?_, .inl rfl⟩
    split_ifs <;> simp only [rc6HalfBits, hp, Bool.toNat_false] <;> omega
  | readFieldWait =>
    have hinc := toNat_inc (i := r.field) (by omega)
    rw [rc6Step_readFieldWait hp hin, rc6CountField_eq]
    refine ⟨?_, .inl rfl⟩
    have hcost (hcount : 5 < deltaT ts r.last ∨ r.mid = true) : 2 ≤ g + r.mid.toNat :=
      hbit fun ⟨h5, hm⟩ => hcount.elim (Nat.not_lt.2 h5) (by simp [hm])
    split_ifs with h10 hcount h3
    · simp only [rc6HalfBits, hp, BitVec.reduceToNat]; omega
    · have hthird : r.field.toNat = 2 := congrArg BitVec.toNat h3
      have hcost := hcost hcount
      simp only [rc6HalfBits, hp, Bool.toNat_false]; omega
    · have hcost := hcost hcount
      simp only [rc6HalfBits, hp, hinc, Bool.toNat_false]; omega
    · simp only [rc6HalfBits, hp, Bool.toNat_true]; omega
  | readToggle1 =>
    rw [rc6Step_readToggle1 hp hin]
    refine ⟨?_, .inl rfl⟩
    split_ifs with h30 hhalf
    · simp only [rc6HalfBits, hp]; omega
    · simp only [rc6HalfBits, hp, Bool.toNat_true]; omega
    · have hcost := hbit hhalf
      simp only [rc6HalfBits, hp]; omega
  | readToggle2 =>
    rw [rc6Step_readToggle2 hp hin, if_neg (show ¬ deltaT ts r.last = 10 by omega)]
    refine ⟨?_, .inl rfl⟩
    split_ifs <;> simp only [rc6HalfBits, rc6BeginData, hp, BitVec.reduceToNat] <;> omega
  | readGet =>
    by_cases h10 : 10 < deltaT ts r.last
    · rw [rc6Step_readGet_late hp hin h10]
      exact ⟨hle.trans (Nat.le_add_right _ _), .inl rfl⟩
    · rw [rc6Step_readGet hp (Nat.not_lt.1 h10)]
      split_ifs with hhalf
      · refine ⟨?_, .inl rfl⟩
        simp only [rc6HalfBits, hp, Bool.toNat_true]; omega
      · exact rc6HalfBits_store hp hi hg fun h0 =>
          hbit fun ⟨h5, hm⟩ => hhalf ⟨h5, hm, mt (congrArg BitVec.toNat) h0⟩

/-- A level sequence too short for a commit leaves the latch. -/
theorem rc6UnitRun_latch {us : List Bool} (h : r.Inv) (hl : r.last = BitVec.ofNat 16 t) (hg : 1 ≤ g)
    (hlen : g + us.length ≤ rc6HalfBits r) : (rc6UnitRun l (t + 4 * g) us (r, latch)).2 = latch := by
  induction us generalizing l t g r latch with
  | nil => rfl
  | cons u us ih =>
    rw [List.length_cons] at hlen
    have hle := rc6HalfBits_le h
    rw [rc6UnitRun]
    split_ifs
    · exact ih h hl (g := g + 1) (by omega) (by omega)
    · obtain ⟨hstep, hlatch⟩ := rc6Step_rc6HalfBits (lv := u) (latch := latch) h hg
        (deltaT_of_last hl (d := 4 * g) (by omega))
      have hinv := rc6Step_keeps_inv h (BitVec.ofNat 16 (t + 4 * g)) u latch
      have hlast := rc6Step_last (BitVec.ofNat 16 (t + 4 * g)) u r latch
      exact (ih hinv hlast le_rfl (by omega)).trans (hlatch.resolve_right (by omega))

end Dropped

/-- Settles O43: a first data bit other than the toggle bit leads to Init, and what is left of the frame is too short for a
commit. -/
theorem rc6FrameWithOtherToggleIsDropped : Obligations.Rc6FrameWithOtherToggleIsDropped := by
  intro t0 mode data s hp hf
  obtain ⟨r', hp', hf', hl', hrun⟩ := rc6UnitRun_rc6Units hp hf t0 mode (!data.getLsbD 15) data s.rc6Latch
  have hframe := State.rc6Part_applyEvents_rc6Frame s t0 mode (!data.getLsbD 15) data
  rw [State.rc6Part, State.rc6Part, hrun, rc6DataUnitsFrom_succ, rc6UnitRun_firstBit_other hp' hl' (by simp)] at hframe
  refine (congrArg Prod.snd hframe).trans (rc6UnitRun_latch (t := t0 + 72 + 12) (g := 1) ?_ rfl le_rfl ?_)
  · simp [Rc6State.Inv, rc6BeginData, hf']
  · simp [rc6HalfBits, rc6BeginData, hf', rc6DataUnitsFrom_length]

end Sys2Proof.Machine

/-! Latch reads and the key mapper (43_key_mapper.md): what the three consumer operations return and clear, and which key a pair of
codes has. -/

namespace Sys2Proof.Machine

/-! ### What the reads return and clear (R220 to R222) -/

/-- Settles O44. -/
theorem readNecReturnsAndClears : Obligations.ReadNecReturnsAndClears :=
  exec_eq .readNec

/-- Settles O45: the zero-extended code has the latch's number. -/
theorem readRc6ReturnsAndClears : Obligations.ReadRc6ReturnsAndClears := fun s =>
  ⟨rc6ResultWord s.rc6Latch, rc6ResultWord_toNat s.rc6Latch, exec_eq .readRc6 s⟩

/-- DECODE clears both latches and returns the key of the codes they held (R222). -/
theorem exec_decode (s : State) : exec .decode s = .next { s with
    necLatch := 0, rc6Latch := 0, result := some (keyResultWord (mapCodes s.codeTable s.necLatch s.rc6Latch)) } :=
  exec_eq .decode s

/-- The result of DECODE is the key of the codes the latches held (R222). -/
theorem result_of_exec_decode {s t : State} (h : exec .decode s = .next t) :
    t.result = some (keyResultWord (mapCodes s.codeTable s.necLatch s.rc6Latch)) := by
  rw [exec_decode] at h
  cases h
  rfl

/-! ### The key of a pair of codes (R223 to R225) -/

section Keys
variable {t : CodeTable} {n : Word} {r : Half} {k : KeyId}

/-- What the NEC list finds decides, whatever the RC6 code (R224). -/
theorem mapCodes_of_nec (hn : lookupCode n t.nec = some k) (r : Half) : mapCodes t n r = k := by
  rw [mapCodes, hn]

/-- The RC6 list is asked where the NEC list finds nothing (R223). -/
theorem mapCodes_of_rc6 (hn : lookupCode n t.nec = none) (hr : lookupCode r t.rc6 = some k) : mapCodes t n r = k := by
  rw [mapCodes, hn, hr]

/-- Codes that neither list finds give None (R222). -/
theorem mapCodes_of_unlisted (hn : lookupCode n t.nec = none) (hr : lookupCode r t.rc6 = none) : mapCodes t n r = .none := by
  rw [mapCodes, hn, hr]

/-- A listed code is found, with a key that the list gives it. -/
theorem exists_lookupCode_of_mem {w : Nat} {code : BitVec w} {l : List (BitVec w × KeyId)} (h : (code, k) ∈ l) :
    ∃ k', lookupCode code l = some k' :=
  Option.ne_none_iff_exists'.1 fun hnone => lookupCode_eq_none.1 hnone k h

/-- Where no entry names None, the lookup never gives it. -/
theorem lookupCode_ne_none_key {w : Nat} {code : BitVec w} {l : List (BitVec w × KeyId)} (hl : ∀ e ∈ l, e.2 ≠ .none) :
    lookupCode code l ≠ some .none :=
  fun h => hl _ (mem_of_lookupCode h) rfl

/-- Under a well-formed CODE_TABLE only codes that neither list holds give None, since no entry names None (R41(a), R225). -/
theorem mapCodes_eq_none_iff (hw : t.wellFormed = true) :
    mapCodes t n r = .none ↔ (∀ k, (n, k) ∉ t.nec) ∧ (∀ k, (r, k) ∉ t.rc6) := by
  obtain ⟨⟨hnec, hrc6⟩, -⟩ := (wellFormedTableConditions t).1 hw
  rw [← lookupCode_eq_none, ← lookupCode_eq_none]
  refine ⟨fun h => ?_, fun ⟨hn, hr⟩ => mapCodes_of_unlisted hn hr⟩
  cases hn : lookupCode n t.nec with
  | some k =>
    rw [mapCodes_of_nec hn] at h
    exact absurd (h ▸ hn) (lookupCode_ne_none_key hnec)
  | none =>
    cases hr : lookupCode r t.rc6 with
    | some k =>
      rw [mapCodes_of_rc6 hn hr] at h
      exact absurd (h ▸ hr) (lookupCode_ne_none_key hrc6)
    | none => exact ⟨rfl, rfl⟩

/-- Only None has the number 0 (R39). -/
theorem keyResultWord_eq_zero_iff : keyResultWord k = 0 ↔ k = .none := by
  cases k <;> decide

end Keys

/-- Settles O46: the key is `mapCodes` of the two latches, and the lookup finds the first entry of a code. -/
theorem decodeReturnsTheFirstMatch : Obligations.DecodeReturnsTheFirstMatch := fun s =>
  ⟨mapCodes s.codeTable s.necLatch s.rc6Latch, exec_decode s,
    fun _ _ hi hfirst => mapCodes_of_nec (lookupCode_of_first hi hfirst) _,
    fun hn _ _ hi hfirst => mapCodes_of_rc6 (lookupCode_eq_none.2 hn) (lookupCode_of_first hi hfirst),
    fun hn hr => mapCodes_of_unlisted (lookupCode_eq_none.2 hn) (lookupCode_eq_none.2 hr)⟩

/-- Settles O47: what the NEC list finds is the key, with the RC6 latch as it is or as another. -/
theorem decodeGivesNecPriority : Obligations.DecodeGivesNecPriority := by
  intro s r ⟨_, hmem⟩
  obtain ⟨k, hk⟩ := exists_lookupCode_of_mem hmem
  refine ⟨?_, _, k, exec_decode s, mem_of_lookupCode hk, ?_, rfl, rfl⟩
  · rw [exec_decode, exec_decode, mapCodes_of_nec hk, mapCodes_of_nec hk]
  · rw [mapCodes_of_nec hk]

/-- Settles O48: no literal is 0 by R41(d), and only unlisted codes map to None. -/
theorem decodeReturnsNoneIffNothingListed : Obligations.DecodeReturnsNoneIffNothingListed := by
  intro s hw
  obtain ⟨-, -, -, hnec, hrc6⟩ := (wellFormedTableConditions s.codeTable).1 hw
  refine ⟨⟨_, exec_decode s, ?_⟩, fun k hk => hnec _ hk rfl, fun k hk => hrc6 _ hk rfl⟩
  rw [Option.some_inj, keyResultWord_eq_zero_iff, mapCodes_eq_none_iff hw]

/-! ### ENTER (R226) -/

/-- A run of events does not write CODE_TABLE (R35). -/
@[simp] theorem State.applyEvents_codeTable (s : State) (evs : List EdgeEvent) : (s.applyEvents evs).codeTable = s.codeTable := by
  induction evs generalizing s with
  | nil => rfl
  | cons e evs ih => exact ih _

/-- Settles O50: the run commits the code, whose first entry is Enter; the first DECODE clears both latches, so the second finds
nothing. -/
theorem enterIsDecodedExactlyOnce : Obligations.EnterIsDecodedExactlyOnce := by
  intro s ts i hw hi hfirst h0 hwin
  have hkey : mapCodes s.codeTable (s.applyEvents (necShapedEvents ts)).necLatch
      (s.applyEvents (necShapedEvents ts)).rc6Latch = .enter := by
    rw [necLatch_of_necWindows h0 hwin]
    exact mapCodes_of_nec (lookupCode_of_first hi fun j k hj => hfirst j hj k) _
  obtain ⟨-, -, t, u, ht, hu, hnone⟩ := secondReadFindsNothing (s.applyEvents (necShapedEvents ts)) (by simpa using hw)
  refine ⟨t, u, ht, ?_, hu, hnone⟩
  rw [result_of_exec_decode ht, State.applyEvents_codeTable, hkey]
  rfl

end Sys2Proof.Machine

/-! A badly formed CODE_TABLE (60_exceptions.md R263): no instance is built with it, and no step is taken with it. -/

namespace Sys2Proof.Machine

/-- An instance built with a well-formed CODE_TABLE is in its reset state (R41, R263). -/
theorem buildInstance_of_wellFormed {t : CodeTable} (hw : t.wellFormed = true) (b : Option Nat) :
    buildInstance t b = .next (State.resetWith t b) := by
  rw [buildInstance, if_pos hw]

/-- A badly formed CODE_TABLE is refused when an instance is built with it (R263). -/
theorem buildInstance_of_illFormed {t : CodeTable} (hw : t.wellFormed = false) (b : Option Nat) :
    buildInstance t b = .refused .illFormedCodeTable := by
  rw [buildInstance, if_neg (Bool.eq_false_iff.1 hw)]

/-- A State value that holds a badly formed CODE_TABLE takes no step, whatever is scheduled. No instance is such a value
(`buildInstance_of_illFormed`); that its step is a refusal is the model's reading (log 5). -/
theorem step_of_illFormed {s : State} (hw : s.codeTable.wellFormed = false) : step s = .refused .illFormedCodeTable := by
  rw [step, runNext, if_neg (Bool.eq_false_iff.1 hw)]

/-- Settles O16: `buildInstance` and `step` both ask first whether the table is well-formed. -/
theorem badTableHasNoRun : Obligations.BadTableHasNoRun :=
  ⟨fun t b => ⟨fun hw => ⟨State.resetWith t b, buildInstance_of_wellFormed hw b, rfl, rfl, rfl, rfl, rfl⟩,
    fun hw => buildInstance_of_illFormed hw b⟩, fun _ hw => step_of_illFormed hw⟩

end Sys2Proof.Machine

/-! The reset state and the reset input (70_reset_and_hazards.md): their values, and which decoder fields in Init can still be
observed. -/

namespace Sys2Proof.Machine

/-! ### The values after reset (R290, R291) -/

/-- A step that finds the reset input applies it and takes it off the schedule (R290). -/
theorem step_of_reset {s : State} {rest : List Input} (hw : s.codeTable.wellFormed = true) (hs : s.schedule = .reset :: rest) :
    step s = .next (s.withSchedule rest).applyReset :=
  step_input hw hs

/-- Settles O13, by what the reset input leaves in each field. -/
theorem resetInputRestoresTheResetState : Obligations.ResetInputRestoresTheResetState :=
  fun s rest hw hs => ⟨(s.withSchedule rest).applyReset, step_of_reset hw hs, rfl, rfl, rfl, rfl, rfl⟩

/-- Settles O14, by the values `State.reset` is written with. -/
theorem resetStateValues : Obligations.ResetStateValues :=
  ⟨rfl, rfl, rfl, rfl⟩

/-! ### The fields that are read again (R292)

A decoder field is live in a phase when a later event may read it before it is overwritten. `live` puts every other field at its
reset value. A step from `s.live` and a step from `s` show the same and leave the same live fields, so what is not live is never
seen. -/

/-- The live fields of `nec`: `last` is read outside Init (R121), the accumulator and the index from ReadWait on, since Start
writes both before (R124). -/
def NecState.live (n : NecState) : NecState :=
  match n.phase with
  | .init => NecState.reset
  | .start => { NecState.reset with phase := .start, last := n.last }
  | .readWait | .readGet | .stop => n

/-- The live fields of `rc6`: the field count is read in every frame (R170, R186), `last` outside Init (R161), the flag from
ReadFieldWait on, since Start3 clears it before (R168), the accumulator and the index in ReadGet, since ReadToggle2 clears both
before (R176). -/
def Rc6State.live (r : Rc6State) : Rc6State :=
  match r.phase with
  | .init => { Rc6State.reset with field := r.field }
  | .start1 | .start2 | .start3 => { r with acc := 0, bitIndex := 0, mid := false }
  | .readFieldWait | .readToggle1 | .readToggle2 => { r with acc := 0, bitIndex := 0 }
  | .readGet => r

/-- The state with the live fields of its decoders. -/
def State.live (s : State) : State := { s with nec := s.nec.live, rc6 := s.rc6.live }

/-- What an outcome leaves live. -/
def liveOutcome (o : Host.Outcome State Fault Refusal) : Host.Outcome State Fault Refusal :=
  match o with
  | .next s => .next s.live
  | .fault f => .fault f
  | .refused r => .refused r

/-- What `live` keeps is live. -/
@[simp] theorem NecState.live_live (n : NecState) : n.live.live = n.live := by
  obtain ⟨p, acc, i, last⟩ := n
  cases p <;> rfl

@[simp] theorem Rc6State.live_live (r : Rc6State) : r.live.live = r.live := by
  obtain ⟨p, acc, i, f, m, last⟩ := r
  cases p <;> rfl

section Decoders
variable {ts : Timestamp} {lv : Bool}

/-- The phase is always live. -/
@[simp] theorem Rc6State.live_phase (r : Rc6State) : r.live.phase = r.phase := by
  rw [Rc6State.live]
  split <;> simp_all [Rc6State.reset]

/-- The field count is always live: a new frame begins with what the last one left in it (R186). -/
@[simp] theorem Rc6State.live_field (r : Rc6State) : r.live.field = r.field := by
  rw [Rc6State.live]
  split <;> rfl

/-- Outside Init the last timestamp is live (R161). -/
theorem Rc6State.live_last {r : Rc6State} (h : r.phase ≠ .init) : r.live.last = r.last := by
  rw [Rc6State.live]
  split
  · contradiction
  all_goals rfl

/-- A NEC step reads live fields only. -/
theorem necStep_live (n : NecState) (latch : Word) :
    (necStep ts lv n.live latch).1.live = (necStep ts lv n latch).1.live ∧
      (necStep ts lv n.live latch).2 = (necStep ts lv n latch).2 := by
  obtain ⟨p, acc, i, last⟩ := n
  cases p with
  | init =>
    simp only [NecState.live]
    rw [necStep_of_init rfl, necStep_of_init rfl]
    cases lv <;> exact ⟨rfl, rfl⟩
  | start =>
    simp only [NecState.live]
    by_cases hg : NEC_GUARD < deltaT ts last
    · rw [necStep_of_guard hg, necStep_of_guard hg]
      cases lv <;> exact ⟨rfl, rfl⟩
    · rw [necStep_in_time (Nat.not_lt.1 hg), necStep_in_time (Nat.not_lt.1 hg)]
      refine ⟨?_, rfl⟩
      simp only [necRow, necStart]
      split_ifs <;> rfl
  | readWait | readGet | stop => exact ⟨rfl, rfl⟩

/-- After an edge handled in Init only the phase, the field count and the timestamp are live. -/
theorem Rc6State.live_from_init_congr {r r' : Rc6State} (h : r.field = r'.field) :
    Rc6State.live { r with last := ts, phase := if lv = false then .start1 else .init } =
      Rc6State.live { r' with last := ts, phase := if lv = false then .start1 else .init } := by
  cases lv <;> simp [Rc6State.live, h]

/-- An RC6 step reads live fields only. -/
theorem rc6Step_live (r : Rc6State) (latch : Half) :
    (rc6Step ts lv r.live latch).1.live = (rc6Step ts lv r latch).1.live ∧
      (rc6Step ts lv r.live latch).2 = (rc6Step ts lv r latch).2 := by
  have hphase := r.live_phase
  by_cases hinit : r.phase = .init
  · rw [rc6Step_from_init_eq (.inl hinit), rc6Step_from_init_eq (.inl (hphase.trans hinit))]
    exact ⟨Rc6State.live_from_init_congr r.live_field, rfl⟩
  have hlast := Rc6State.live_last hinit
  by_cases hg : 100 < deltaT ts r.last
  · rw [rc6Step_from_init_eq (.inr hg), rc6Step_from_init_eq (.inr (hlast ▸ hg))]
    exact ⟨Rc6State.live_from_init_congr r.live_field, rfl⟩
  replace hg := Nat.not_lt.1 hg
  have hg' : deltaT ts r.live.last ≤ 100 := hlast ▸ hg
  cases hp : r.phase with
  | init => contradiction
  | start1 =>
    rw [rc6Step_start1 hp hg, rc6Step_start1 (hphase.trans hp) hg', hlast]
    refine ⟨?_, rfl⟩
    split_ifs <;> simp [Rc6State.live, hp]
  | start2 =>
    rw [rc6Step_start2 hp hg, rc6Step_start2 (hphase.trans hp) hg', hlast]
    refine ⟨?_, rfl⟩
    split_ifs <;> simp [Rc6State.live, hp]
  | start3 =>
    rw [rc6Step_start3 hp hg, rc6Step_start3 (hphase.trans hp) hg', hlast]
    refine ⟨?_, rfl⟩
    split_ifs <;> simp [Rc6State.live, hp]
  | readFieldWait =>
    have hmid : r.live.mid = r.mid := by rw [Rc6State.live, hp]
    rw [rc6Step_readFieldWait hp hg, rc6Step_readFieldWait (hphase.trans hp) hg', hlast, hmid]
    refine ⟨?_, rfl⟩
    simp only [rc6CountField_eq, Rc6State.live_field]
    split_ifs <;> simp [Rc6State.live, hp]
  | readToggle1 =>
    have hmid : r.live.mid = r.mid := by rw [Rc6State.live, hp]
    rw [rc6Step_readToggle1 hp hg, rc6Step_readToggle1 (hphase.trans hp) hg', hlast, hmid]
    refine ⟨?_, rfl⟩
    split_ifs <;> simp [Rc6State.live, hp]
  | readToggle2 =>
    rw [rc6Step_readToggle2 hp hg, rc6Step_readToggle2 (hphase.trans hp) hg', hlast]
    refine ⟨?_, rfl⟩
    split_ifs <;> simp [Rc6State.live, rc6BeginData, rc6Store, hp]
  | readGet =>
    have hall : r.live = r := by rw [Rc6State.live, hp]
    rw [hall]
    exact ⟨rfl, rfl⟩

end Decoders

@[simp] theorem State.live_live (s : State) : s.live.live = s.live := by
  simp [State.live]

/-- An edge event reads live fields only. -/
theorem State.applyEdge_live (s : State) (ts : Timestamp) (lv : Bool) :
    (s.live.applyEdge ts lv).live = (s.applyEdge ts lv).live := by
  obtain ⟨hnec, hnecLatch⟩ := necStep_live (ts := ts) (lv := lv) s.nec s.necLatch
  obtain ⟨hrc6, hrc6Latch⟩ := rc6Step_live (ts := ts) (lv := lv) s.rc6 s.rc6Latch
  simp only [State.applyEdge, State.edgeNec, State.edgeRc6, State.withResult, State.live, hnec, hnecLatch, hrc6, hrc6Latch]

/-- An operation reads live fields only; the consumer's leave the decoders as they are (R38). -/
theorem exec_live (i : Instr) (s : State) : liveOutcome (exec i s.live) = liveOutcome (exec i s) := by
  rw [exec_eq, exec_eq]
  cases i with
  | edge ts lv => exact congrArg Host.Outcome.next (s.applyEdge_live ts lv)
  | readNec | readRc6 | decode => simp [liveOutcome, State.live, State.clearNec, State.clearRc6, State.withResult]

/-- A bus read performs an operation or is refused, by its address and width alone. -/
theorem busRead_live (addr width : Nat) (s : State) :
    liveOutcome (busRead addr width s.live) = liveOutcome (busRead addr width s) := by
  have hbase : s.live.busBase = s.busBase := rfl
  rw [busRead, busRead, hbase]
  cases busOffset s.busBase addr width with
  | error r => rfl
  | ok k =>
    by_cases hk : k ≠ 0 ∧ k ≠ 4 ∧ k ≠ 8
    · simp only [readWindow_badOffset hk]
    · obtain rfl | rfl | rfl : k = 0 ∨ k = 4 ∨ k = 8 := by omega
      · exact exec_live .readNec s
      · exact exec_live .readRc6 s
      · exact exec_live .decode s

/-- A bus write has no effect or is refused, by its address and width alone. -/
theorem busWrite_live (addr width : Nat) (s : State) :
    liveOutcome (busWrite addr width s.live) = liveOutcome (busWrite addr width s) := by
  have hbase : s.live.busBase = s.busBase := rfl
  rw [busWrite, busWrite, hbase]
  cases busOffset s.busBase addr width with
  | error r => rfl
  | ok k =>
    by_cases hk : k ≠ 0 ∧ k ≠ 4 ∧ k ≠ 8
    · simp only [writeWindow_badOffset hk]
    · obtain rfl | rfl | rfl : k = 0 ∨ k = 4 ∨ k = 8 := by omega
      iterate 3 · exact congrArg Host.Outcome.next s.live_live

/-- An input reads live fields only; reset reads none. -/
theorem applyInput_live (x : Input) (s : State) : liveOutcome (applyInput x s.live) = liveOutcome (applyInput x s) := by
  cases x with
  | op w =>
    rw [applyInput, applyInput, applyWord, applyWord]
    cases decodeWord w with
    | op i => exact exec_live i s
    | illegal v => rfl
  | reset => rfl
  | busRead addr width => exact busRead_live addr width s
  | busWrite addr width v => exact busWrite_live addr width s

/-- A step reads live fields only: what it leaves live, or its refusal, does not depend on the others. -/
theorem step_live (s : State) : liveOutcome (step s.live) = liveOutcome (step s) := by
  cases hw : s.codeTable.wellFormed with
  | false => rw [step_of_illFormed hw, step_of_illFormed (s := s.live) hw]
  | true =>
    cases hs : s.schedule with
    | nil =>
      rw [step_idle hw hs, step_idle (s := s.live) hw hs]
      exact congrArg Host.Outcome.next s.live_live
    | cons x rest =>
      rw [step_input hw hs, step_input (s := s.live) hw hs]
      exact applyInput_live x (s.withSchedule rest)

/-! ### What is seen of a run (R292) -/

/-- What is seen of an outcome is live. -/
theorem seen_liveOutcome (o : Host.Outcome State Fault Refusal) : seen (liveOutcome o) = seen o := by
  cases o with
  | next s => rfl
  | refused r => rfl
  | fault f => nomatch f

/-- Runs from states with the same live fields show the same: each step keeps them the same or is refused in both. -/
theorem seen_run_of_live_eq {s t : State} (h : s.live = t.live) (n : Nat) :
    seen (Host.Core.run Sys2Proof.core n s) = seen (Host.Core.run Sys2Proof.core n t) := by
  induction n generalizing s t with
  | zero =>
    calc seen (.next s) = seen (.next s.live) := (seen_liveOutcome (.next s)).symm
      _ = seen (.next t.live) := by rw [h]
      _ = seen (.next t) := seen_liveOutcome (.next t)
  | succ n ih =>
    have hstep : liveOutcome (step s) = liveOutcome (step t) := by rw [← step_live s, h, step_live t]
    cases hs : step s with
    | next s' =>
      cases ht : step t with
      | next t' =>
        rw [hs, ht] at hstep
        rw [run_of_next hs, run_of_next ht]
        exact ih (Host.Outcome.next.inj hstep)
      | refused r => rw [hs, ht] at hstep; cases hstep
      | fault f => nomatch f
    | refused r =>
      cases ht : step t with
      | next t' => rw [hs, ht] at hstep; cases hstep
      | refused r' =>
        rw [hs, ht] at hstep
        rw [run_of_refused hs, run_of_refused ht]
        exact congrArg seen hstep
      | fault f => nomatch f
    | fault f => nomatch f

/-- With both decoders in Init the live fields are the phases, the field count and what stands outside the decoders. -/
theorem SameButUnobservable.live_eq {s t : State} (h : SameButUnobservable s t) : s.live = t.live := by
  have hnec : s.nec.live = t.nec.live := by rw [NecState.live, NecState.live, h.necInit, h.necInit']
  have hrc6 : s.rc6.live = t.rc6.live := by rw [Rc6State.live, Rc6State.live, h.rc6Init, h.rc6Init', h.field]
  rw [State.live, State.live, State.mk.injEq]
  exact ⟨hnec, hrc6, h.necLatch, h.rc6Latch, h.result, h.codeTable, h.busBase, h.schedule⟩

/-- Settles O60: the two states have the same live fields, and a run shows nothing else. -/
theorem otherResetFieldsCannotBeObserved : Obligations.OtherResetFieldsCannotBeObserved :=
  fun _ _ n h => seen_run_of_live_eq h.live_eq n

end Sys2Proof.Machine
